-- ==== Sys2Proof/Word.lean ====
section
/-! DEFINITION. The widths of the engine's values (spec/00_scope.md R10, R11; spec/30_encoding.md R90). -/

namespace Sys2Proof

/-- A byte (R11). -/
abbrev Byte := BitVec 8

/-- One word of the state buffer, in the widest form any row needs (R33): a 32-bit row's words lie in the low
half and the high half is zero (`Sys2Proof.Machine.Engine.Inv` says so). -/
abbrev Word := BitVec 64

/-- A command header or a response word: 32 bits carried whole, with no byte order (R65, R90). -/
abbrev PortWord := BitVec 32

end Sys2Proof
end

