-- ==== Sys2Proof/Syntax.lean ====
section
/-! DEFINITION. The commands: one constructor for each row of spec/opcode_table.json (spec/30_encoding.md R96). -/

namespace Sys2Proof

/-- The eight algorithms, in the order of their numbers 0 to 7 (R2, R30). -/
inductive Alg
  | sha1
  | sha224
  | sha256
  | sha384
  | sha512
  | sha512_224
  | sha512_256
  | legacy128
deriving DecidableEq, Repr

/-- A command of the engine, as its header gives it (R96). The payload is no part of the header: it lies in
the state's `payload` (R90), and `len` is how many bytes the header says it has (R94). -/
inductive Instr
  | initSha1
  | initSha224
  | initSha256
  | initSha384
  | initSha512
  | initSha512_224
  | initSha512_256
  | initLegacy128
  | update (len : Nat)
  | finish
  | oneshot (len : Nat)
deriving DecidableEq, Repr

end Sys2Proof
end

