-- ==== Sys2Proof/Config.lean ====
section
/-! DEFINITION. What the implementation fixes: the types of the Algorithm Parameter Table, the transform families,
and the transforms the spec leaves open (spec/00_scope.md R9, spec/10_state.md R30, spec/41_compress.md R140, R141).
The table's values stand in Sys2Proof/Machine/Params.lean. -/

namespace Sys2Proof

/-- The two byte orders (R12). -/
inductive Endian
  | big
  | little
deriving DecidableEq, Repr

/-- The four transform families (R141). -/
inductive Family
  | sha1
  | sha256
  | sha512
  | l128
deriving DecidableEq, Repr

/-- A row of the Algorithm Parameter Table (R30, R31); sizes in bytes, but `stateWidth` in words. -/
structure AlgorithmMeta where
  blockLength : Nat
  stateWidth : Nat
  wordSize : Nat
  lengthCounterWidth : Nat
  outputEndianness : Endian
  family : Family
  initialState : List Word
deriving DecidableEq, Repr

/-- The type of a transform: (words of the state) x (bytes of the block) -> words of the state (R140). -/
abbrev Transform (bitsPerWord stateWidth blockLength : Nat) :=
  Vector (BitVec bitsPerWord) stateWidth → Vector Byte blockLength → Vector (BitVec bitsPerWord) stateWidth

/-- `T[F_SHA1]`, OPEN (R9, R141): nothing in the model says what it computes. -/
opaque Config.transformSha1 : Transform 32 5 64

/-- `T[F_SHA256]`, OPEN (R9, R141). -/
opaque Config.transformSha256 : Transform 32 8 64

/-- `T[F_SHA512]`, OPEN (R9, R141). -/
opaque Config.transformSha512 : Transform 64 8 128

/-- `T[F_L128]`, OPEN (R9, R141). -/
opaque Config.transformL128 : Transform 32 4 64

end Sys2Proof
end

