-- ==== Sys2Proof/Machine/Published.lean ====
section
/-! DEFINITION. The published round functions that spec/41_compress.md R146 names for a reader who wants real digests:
SHA-1, SHA-256 and SHA-512 (FIPS 180-4) and MD5 (RFC 1321). PRESUMED: the spec does not print them (R5), they come from
those publications (notes/assumptions/10.md). No rule of the engine depends on them (R140). -/

namespace Sys2Proof.Published

/-- The integer cube root of `v`, bit by bit: `root` with its `n` lowest bits still to be found. -/
def cubeRoot (v : Nat) : Nat → Nat → Nat
  | 0, root => root
  | n + 1, root => cubeRoot v n (if (root + 2 ^ n) ^ 3 ≤ v then root + 2 ^ n else root)

/-- The first eighty primes: the numbers below 410 that nothing from 2 to 20 properly divides. -/
def primes : List Nat :=
  (List.range 410).filter fun p => 2 ≤ p && (List.range 21).all fun d => d < 2 || p ≤ d || p % d != 0

/-- The first `w` bits of the fractional part of the cube root of each prime, which are the round constants of
SHA-256 (`w = 32`, the first 64) and SHA-512 (`w = 64`, all 80). A root below 8 has three bits before the point. -/
def sha2K (w : Nat) : List (BitVec w) := primes.map fun p => BitVec.ofNat w (cubeRoot (p * 2 ^ (3 * w)) (w + 3) 0)

/-- The 64 additive constants of MD5. -/
def md5K : List (BitVec 32) :=
  [0xd76aa478, 0xe8c7b756, 0x242070db, 0xc1bdceee, 0xf57c0faf, 0x4787c62a, 0xa8304613, 0xfd469501,
   0x698098d8, 0x8b44f7af, 0xffff5bb1, 0x895cd7be, 0x6b901122, 0xfd987193, 0xa679438e, 0x49b40821] ++
  [0xf61e2562, 0xc040b340, 0x265e5a51, 0xe9b6c7aa, 0xd62f105d, 0x02441453, 0xd8a1e681, 0xe7d3fbc8,
   0x21e1cde6, 0xc33707d6, 0xf4d50d87, 0x455a14ed, 0xa9e3e905, 0xfcefa3f8, 0x676f02d9, 0x8d2a4c8a] ++
  [0xfffa3942, 0x8771f681, 0x6d9d6122, 0xfde5380c, 0xa4beea44, 0x4bdecfa9, 0xf6bb4b60, 0xbebfbc70,
   0x289b7ec6, 0xeaa127fa, 0xd4ef3085, 0x04881d05, 0xd9d4d039, 0xe6db99e5, 0x1fa27cf8, 0xc4ac5665] ++
  [0xf4292244, 0x432aff97, 0xab9423a7, 0xfc93a039, 0x655b59c3, 0x8f0ccc92, 0xffeff47d, 0x85845dd1,
   0x6fa87e4f, 0xfe2ce6e0, 0xa3014314, 0x4e0811a1, 0xf7537e82, 0xbd3af235, 0x2ad7d2bb, 0xeb86d391]

/-- The block read as `n` big-endian words of `k` bytes, first word first (R146). -/
def bigWords (w k : Nat) : Nat → List Byte → List (BitVec w)
  | 0, _ => []
  | n + 1, bs => BitVec.ofNat w ((bs.take k).foldl (fun a b => a * 256 + b.toNat) 0) :: bigWords w k n (bs.drop k)

/-- The block read as `n` little-endian words of `k` bytes, first word first (R146). -/
def littleWords (w k : Nat) : Nat → List Byte → List (BitVec w)
  | 0, _ => []
  | n + 1, bs => BitVec.ofNat w ((bs.take k).foldr (fun b a => a * 256 + b.toNat) 0) :: littleWords w k n (bs.drop k)

/-- `n` further words in front of a message schedule that is held newest word first. -/
def extend {w : Nat} (next : List (BitVec w) → BitVec w) : Nat → List (BitVec w) → List (BitVec w)
  | 0, ws => ws
  | n + 1, ws => extend next n (next ws :: ws)

/-- Word `j` of a list of words. -/
def wordAt {w : Nat} (l : List (BitVec w)) (j : Nat) : BitVec w := l.getD j 0

/-- The new state: old and worked words added one by one. -/
def addWords {w n : Nat} (st : Vector (BitVec w) n) (worked : List (BitVec w)) : Vector (BitVec w) n :=
  Vector.ofFn fun i => st[i] + wordAt worked i

/-- `Ch`: the bit of `y` where that of `x` is set, and of `z` elsewhere. -/
def ch {w : Nat} (x y z : BitVec w) : BitVec w := z ^^^ (x &&& (y ^^^ z))

/-- `Maj`: the bit that two of the three words agree on, as a full adder carries it. -/
def maj {w : Nat} (x y z : BitVec w) : BitVec w := (x &&& y) ||| (z &&& (x ^^^ y))

/-- A word rotated right by each of some amounts, all added without carry: `Σ0` and `Σ1` of SHA-2. -/
def sumOfRotations {w : Nat} (amounts : List Nat) (x : BitVec w) : BitVec w :=
  amounts.foldl (fun acc r => acc ^^^ x.rotateRight r) 0

/-- The amounts in which SHA-256 and SHA-512 differ: the rotations of `Σ0`, `Σ1`, `σ0`, `σ1`, and the shifts of the last
two. -/
structure Sha2Amounts where
  big0 : List Nat
  big1 : List Nat
  small0 : List Nat
  shift0 : Nat
  small1 : List Nat
  shift1 : Nat
deriving DecidableEq, Repr

/-- The word after those of a message schedule, the newest of which comes first. -/
def Sha2Amounts.scheduled {w : Nat} (p : Sha2Amounts) (ws : List (BitVec w)) : BitVec w :=
  let old := wordAt ws 14
  let new := wordAt ws 1
  wordAt ws 15 + (sumOfRotations p.small0 old ^^^ old >>> p.shift0) + wordAt ws 6 +
    (sumOfRotations p.small1 new ^^^ new >>> p.shift1)

/-- One round of SHA-2 on the eight working words, with its constant and its scheduled word. -/
def Sha2Amounts.round {w : Nat} (p : Sha2Amounts) : List (BitVec w) → BitVec w × BitVec w → List (BitVec w)
  | [a, b, c, d, e, f, g, h], (k, m) =>
    let moved := k + m + h + ch e f g + sumOfRotations p.big1 e
    [moved + maj a b c + sumOfRotations p.big0 a, a, b, c, moved + d, e, f, g]
  | other, _ => other

/-- The SHA-2 block function on words of `k` bytes, with `more` words scheduled after the sixteen of the block. -/
def Sha2Amounts.blockFunction {w b : Nat} (p : Sha2Amounts) (k more : Nat) : Transform w 8 b := fun st blk =>
  addWords st (((sha2K w).zip (extend p.scheduled more (bigWords w k 16 blk.toList).reverse).reverse).foldl p.round st.toList)

/-- The SHA-256 block function. -/
def sha256 : Transform 32 8 64 :=
  Sha2Amounts.blockFunction
    { big0 := [2, 13, 22], big1 := [6, 11, 25], small0 := [7, 18], shift0 := 3, small1 := [17, 19], shift1 := 10 } 4 48

/-- The SHA-512 block function. -/
def sha512 : Transform 64 8 128 :=
  Sha2Amounts.blockFunction
    { big0 := [28, 34, 39], big1 := [14, 18, 41], small0 := [1, 8], shift0 := 7, small1 := [19, 61], shift1 := 6 } 8 64

/-- One round of SHA-1 on the five working words. -/
def sha1Round (f : BitVec 32 → BitVec 32 → BitVec 32 → BitVec 32) (k : BitVec 32) (v : List (BitVec 32))
    (x : BitVec 32) : List (BitVec 32) :=
  match v with
  | [a, b, c, d, e] => [a.rotateLeft 5 + f b c d + e + k + x, a, b.rotateLeft 30, c, d]
  | v => v

/-- The SHA-1 block function. -/
def sha1 : Transform 32 5 64 := fun st blk =>
  let parity := fun x y z : BitVec 32 => x ^^^ y ^^^ z
  let next := fun ws : List (BitVec 32) => (wordAt ws 2 ^^^ wordAt ws 7 ^^^ wordAt ws 13 ^^^ wordAt ws 15).rotateLeft 1
  let ws := (extend next 64 (bigWords 32 4 16 blk.toList).reverse).reverse
  let v1 := (ws.take 20).foldl (sha1Round ch 0x5a827999) st.toList
  let v2 := ((ws.drop 20).take 20).foldl (sha1Round parity 0x6ed9eba1) v1
  let v3 := ((ws.drop 40).take 20).foldl (sha1Round maj 0x8f1bbcdc) v2
  addWords st ((ws.drop 60).foldl (sha1Round parity 0xca62c1d6) v3)

/-- One operation of MD5 on the four working words, with its constant, its message word and its rotation. -/
def md5Round (f : BitVec 32 → BitVec 32 → BitVec 32 → BitVec 32) (v : List (BitVec 32))
    (op : BitVec 32 × BitVec 32 × Nat) : List (BitVec 32) :=
  match v with
  | [a, b, c, d] => [d, b + (a + f b c d + op.1 + op.2.1).rotateLeft op.2.2, b, c]
  | v => v

/-- The MD5 block function. -/
def md5 : Transform 32 4 64 := fun st blk =>
  let xs := littleWords 32 4 16 blk.toList
  let round := fun (n : Nat) (f : BitVec 32 → BitVec 32 → BitVec 32 → BitVec 32) (word : Nat → Nat) (rot : List Nat)
      (v : List (BitVec 32)) =>
    ((List.range 16).map fun i => (wordAt md5K (16 * n + i), wordAt xs (word i), rot.getD (i % 4) 0)).foldl (md5Round f) v
  let v1 := round 0 ch (fun i => i) [7, 12, 17, 22] st.toList
  let v2 := round 1 (fun x y z => ch z x y) (fun i => (5 * i + 1) % 16) [5, 9, 14, 20] v1
  let v3 := round 2 (fun x y z => x ^^^ y ^^^ z) (fun i => (3 * i + 5) % 16) [4, 11, 16, 23] v2
  addWords st (round 3 (fun x y z => y ^^^ (x ||| ~~~z)) (fun i => 7 * i % 16) [6, 10, 15, 21] v3)

end Sys2Proof.Published
end

