-- ==== Sys2Proof/WellFormed.lean ====
section
/-! DEFINITION. Which commands have an encoding: the payload length fits its 24-bit field (spec/30_encoding.md R94). -/

namespace Sys2Proof

/-- `LEN` has 24 bits: `0 <= LEN <= 2^24 - 1` (R94). -/
def lenFits (len : Nat) : Bool := len < 2 ^ 24

/-- The check, command by command. -/
def Instr.wellFormed : Instr → Bool
  | .initSha1 => true
  | .initSha224 => true
  | .initSha256 => true
  | .initSha384 => true
  | .initSha512 => true
  | .initSha512_224 => true
  | .initSha512_256 => true
  | .initLegacy128 => true
  | .update len => lenFits len
  | .finish => true
  | .oneshot len => lenFits len

/-- A well-formed command is one that a header word can carry. -/
abbrev Instr.WellFormed (i : Instr) : Prop := i.wellFormed = true

end Sys2Proof
end

