-- ==== Sys2Proof/Decode.lean ====
section
/-! DEFINITION. Command headers: fields, the total decoder, the encoder and the command table
(spec/30_encoding.md R91 to R99). -/

namespace Sys2Proof

/-- `v[hi:lo]` of R10: `(v div 2^lo) mod 2^(hi-lo+1)`. -/
def bits (hi lo v : Nat) : Nat := v / 2 ^ lo % 2 ^ (hi - lo + 1)

/-- `OPC = H[31:28]` (R91). -/
def opcOf (h : PortWord) : Nat := bits 31 28 h.toNat

/-- `ALG = H[27:24]` (R91). -/
def algOf (h : PortWord) : Nat := bits 27 24 h.toNat

/-- `LEN = H[23:0]` (R91). -/
def lenOf (h : PortWord) : Nat := bits 23 0 h.toNat

/-- `H = OPC * 2^28 + ALG * 2^24 + LEN` (R91). -/
def headerOf (opc alg len : Nat) : PortWord := BitVec.ofNat 32 (opc * 2 ^ 28 + alg * 2 ^ 24 + len)

/-- The algorithm numbers (R2, R93). -/
def Alg.number : Alg → Nat
  | .sha1 => 0
  | .sha224 => 1
  | .sha256 => 2
  | .sha384 => 3
  | .sha512 => 4
  | .sha512_224 => 5
  | .sha512_256 => 6
  | .legacy128 => 7

/-- The constructor command of an algorithm (R96). -/
def Instr.init : Alg → Instr
  | .sha1 => .initSha1
  | .sha224 => .initSha224
  | .sha256 => .initSha256
  | .sha384 => .initSha384
  | .sha512 => .initSha512
  | .sha512_224 => .initSha512_224
  | .sha512_256 => .initSha512_256
  | .legacy128 => .initLegacy128

/-- What a header word is (R98): a command of the table, an INIT of an unsupported algorithm, or illegal. -/
inductive Decoded
  | command (i : Instr)
  | initUnsupported (alg : Nat)
  | illegal
deriving DecidableEq, Repr

/-- The INIT part of the decoder, from the `ALG` field (R93, R98). -/
def decodeInit (alg : Nat) : Decoded :=
  match alg with
  | 0 => .command .initSha1
  | 1 => .command .initSha224
  | 2 => .command .initSha256
  | 3 => .command .initSha384
  | 4 => .command .initSha512
  | 5 => .command .initSha512_224
  | 6 => .command .initSha512_256
  | 7 => .command .initLegacy128
  | a => .initUnsupported a

/-- The decoder, total on 32-bit words (R98). -/
def decode (h : PortWord) : Decoded :=
  match opcOf h with
  | 1 => if lenOf h = 0 then decodeInit (algOf h) else .illegal
  | 2 => if algOf h = 0 then .command (.update (lenOf h)) else .illegal
  | 3 => if algOf h = 0 ∧ lenOf h = 0 then .command .finish else .illegal
  | 4 => if algOf h = 0 then .command (.oneshot (lenOf h)) else .illegal
  | _ => .illegal

/-- The header word of a well-formed command (R91, R96). -/
def encode : Instr → PortWord
  | .initSha1 => headerOf 1 0 0
  | .initSha224 => headerOf 1 1 0
  | .initSha256 => headerOf 1 2 0
  | .initSha384 => headerOf 1 3 0
  | .initSha512 => headerOf 1 4 0
  | .initSha512_224 => headerOf 1 5 0
  | .initSha512_256 => headerOf 1 6 0
  | .initLegacy128 => headerOf 1 7 0
  | .update len => headerOf 2 0 len
  | .finish => headerOf 3 0 0
  | .oneshot len => headerOf 4 0 len

/-- How many payload bytes a command carries (R94): `LEN` for UPDATE and ONESHOT, none for the others. -/
def Instr.payloadLength : Instr → Nat
  | .update len => len
  | .oneshot len => len
  | .initSha1 | .initSha224 | .initSha256 | .initSha384 | .initSha512 | .initSha512_224 | .initSha512_256
  | .initLegacy128 | .finish => 0

/-- How many payload bytes accompany a header: none unless it is an UPDATE or a ONESHOT (R94, R99). -/
def payloadLength (h : PortWord) : Nat :=
  match decode h with
  | .command i => i.payloadLength
  | .initUnsupported _ => 0
  | .illegal => 0

/-- A row of the command table (R96). -/
structure Row where
  mnemonic : String
  pattern : PortWord
  mask : PortWord
deriving DecidableEq, Repr

/-- The command table (R96), in its order. -/
def commandTable : List Row :=
  [⟨"INIT.SHA1", 0x10000000, 0xFFFFFFFF⟩,
   ⟨"INIT.SHA224", 0x11000000, 0xFFFFFFFF⟩,
   ⟨"INIT.SHA256", 0x12000000, 0xFFFFFFFF⟩,
   ⟨"INIT.SHA384", 0x13000000, 0xFFFFFFFF⟩,
   ⟨"INIT.SHA512", 0x14000000, 0xFFFFFFFF⟩,
   ⟨"INIT.SHA512_224", 0x15000000, 0xFFFFFFFF⟩,
   ⟨"INIT.SHA512_256", 0x16000000, 0xFFFFFFFF⟩,
   ⟨"INIT.LEGACY128", 0x17000000, 0xFFFFFFFF⟩,
   ⟨"UPDATE", 0x20000000, 0xFF000000⟩,
   ⟨"FINISH", 0x30000000, 0xFFFFFFFF⟩,
   ⟨"ONESHOT", 0x40000000, 0xFF000000⟩]

/-- A header word selects a row when `H AND mask = match` (R96). -/
def Row.selects (r : Row) (h : PortWord) : Bool := h &&& r.mask == r.pattern

/-- A command's mnemonic, as the command table spells it (R96). -/
def Instr.mnemonic : Instr → String
  | .initSha1 => "INIT.SHA1"
  | .initSha224 => "INIT.SHA224"
  | .initSha256 => "INIT.SHA256"
  | .initSha384 => "INIT.SHA384"
  | .initSha512 => "INIT.SHA512"
  | .initSha512_224 => "INIT.SHA512_224"
  | .initSha512_256 => "INIT.SHA512_256"
  | .initLegacy128 => "INIT.LEGACY128"
  | .update _ => "UPDATE"
  | .finish => "FINISH"
  | .oneshot _ => "ONESHOT"

/-- The command that the decoder reads from a row's word, numbered as spec/opcode_table.json numbers it: a row
is one 32-bit header, so a shorter word has zeros above `nbits` and nothing lies above bit 31. -/
def decodeTableWord (nbits w : Nat) : Option Instr :=
  match decode (BitVec.ofNat 32 (w % 2 ^ nbits)) with
  | .command i => some i
  | .initUnsupported _ => none
  | .illegal => none

end Sys2Proof
end

