-- ==== Sys2Proof/Machine/Memory.lean ====
section
/-! DEFINITION. A byte-addressed buffer as plain data in one canonical form, and the spec's primitives on it
(spec/00_scope.md R13, spec/20_memory.md R60, R67). -/

namespace Sys2Proof

/-- A buffer: the bytes that differ from `Memory.unlisted`, by rising offset. -/
abbrev Memory := List Host.Cell

/-- What an unlisted offset reads as: the byte INIT fills the block buffer with (R34). -/
def Memory.unlisted : Byte := 0

/-- The canonical form: offsets strictly rising, and no entry equal to what an unlisted offset reads as. -/
abbrev Memory.wf (m : Memory) : Prop :=
  m.Pairwise (fun c d => c.1 < d.1) ∧ ∀ c ∈ m, c.2 ≠ Memory.unlisted

/-- One byte of the buffer: `block[i]` (R13). -/
def Memory.read : Memory → Nat → Byte
  | [], _ => Memory.unlisted
  | (k, b) :: m, i => if k = i then b else Memory.read m i

/-- `block[i] <- b` (R13), keeping the canonical form. -/
def Memory.write : Memory → Nat → Byte → Memory
  | [], i, v => if v = Memory.unlisted then [] else [(i, v)]
  | (k, b) :: m, i, v =>
    if i < k then (if v = Memory.unlisted then (k, b) :: m else (i, v) :: (k, b) :: m)
    else if i = k then (if v = Memory.unlisted then m else (i, v) :: m)
    else (k, b) :: Memory.write m i v

/-- `MemRead(addr, n)`: the `n` bytes at `addr` (R13). -/
def Memory.readBytes (m : Memory) (addr n : Nat) : List Byte :=
  (List.range n).map fun i => m.read (addr + i)

/-- `MemWrite(addr, n, v)` with `n = len(v)` (R13). -/
def Memory.writeBytes : Memory → Nat → List Byte → Memory
  | m, _, [] => m
  | m, addr, b :: bs => Memory.writeBytes (m.write addr b) (addr + 1) bs

/-- `k` zero bytes, `0x00^k` (R11). -/
def zeroBytes (k : Nat) : List Byte := List.replicate k 0

end Sys2Proof
end

