-- ==== Sys2Proof/Machine/Params.lean ====
section
/-! DEFINITION. The Algorithm Parameter Table: a constant that no command writes (spec/10_state.md R30, R31). -/

namespace Sys2Proof

/-- The row of an algorithm (R30, R31). A 32-bit initial word is written as the same number in a 64-bit word. -/
def Alg.row : Alg → AlgorithmMeta
  | .sha1 =>
    { blockLength := 64, stateWidth := 5, wordSize := 4, lengthCounterWidth := 8, outputEndianness := .big
      family := .sha1
      initialState := [0x67452301, 0xefcdab89, 0x98badcfe, 0x10325476, 0xc3d2e1f0] }
  | .sha224 =>
    { blockLength := 64, stateWidth := 8, wordSize := 4, lengthCounterWidth := 8, outputEndianness := .big
      family := .sha256
      initialState := [0xc1059ed8, 0x367cd507, 0x3070dd17, 0xf70e5939, 0xffc00b31, 0x68581511, 0x64f98fa7, 0xbefa4fa4] }
  | .sha256 =>
    { blockLength := 64, stateWidth := 8, wordSize := 4, lengthCounterWidth := 8, outputEndianness := .big
      family := .sha256
      initialState := [0x6a09e667, 0xbb67ae85, 0x3c6ef372, 0xa54ff53a, 0x510e527f, 0x9b05688c, 0x1f83d9ab, 0x5be0cd19] }
  | .sha384 =>
    { blockLength := 128, stateWidth := 8, wordSize := 8, lengthCounterWidth := 16, outputEndianness := .big
      family := .sha512
      initialState := [0xcbbb9d5dc1059ed8, 0x629a292a367cd507, 0x9159015a3070dd17, 0x152fecd8f70e5939,
        0x67332667ffc00b31, 0x8eb44a8768581511, 0xdb0c2e0d64f98fa7, 0x47b5481dbefa4fa4] }
  | .sha512 =>
    { blockLength := 128, stateWidth := 8, wordSize := 8, lengthCounterWidth := 16, outputEndianness := .big
      family := .sha512
      initialState := [0x6a09e667f3bcc908, 0xbb67ae8584caa73b, 0x3c6ef372fe94f82b, 0xa54ff53a5f1d36f1,
        0x510e527fade682d1, 0x9b05688c2b3e6c1f, 0x1f83d9abfb41bd6b, 0x5be0cd19137e2179] }
  | .sha512_224 =>
    { blockLength := 128, stateWidth := 8, wordSize := 8, lengthCounterWidth := 16, outputEndianness := .big
      family := .sha512
      initialState := [0x8c3d37c819544da2, 0x73e1996689dcd4d6, 0x1dfab7ae32ff9c82, 0x679dd514582f9fcf,
        0x0f6d2b697bd44da8, 0x77e36f7304c48942, 0x3f9d85a86a1d36c8, 0x1112e6ad91d692a1] }
  | .sha512_256 =>
    { blockLength := 128, stateWidth := 8, wordSize := 8, lengthCounterWidth := 16, outputEndianness := .big
      family := .sha512
      initialState := [0x22312194fc2bf72c, 0x9f555fa3c84c64c2, 0x2393b86b6f53b151, 0x963877195940eabd,
        0x96283ee2a88effe3, 0xbe5e1e2553863992, 0x2b0199fc2c85b8aa, 0x0eb72ddc81c52ca2] }
  | .legacy128 =>
    { blockLength := 64, stateWidth := 4, wordSize := 4, lengthCounterWidth := 8, outputEndianness := .little
      family := .l128
      initialState := [0x67452301, 0xefcdab89, 0x98badcfe, 0x10325476] }

/-- `block_length(alg)`, the spec's `B` (R13). -/
def Alg.blockLength (a : Alg) : Nat := a.row.blockLength

/-- `state_width(alg)`, the spec's `SW` (R13). -/
def Alg.stateWidth (a : Alg) : Nat := a.row.stateWidth

/-- `word_size(alg)`, the spec's `WS` (R13). -/
def Alg.wordSize (a : Alg) : Nat := a.row.wordSize

/-- `length_counter_width(alg)`, the spec's `L` (R13). -/
def Alg.lengthCounterWidth (a : Alg) : Nat := a.row.lengthCounterWidth

/-- `output_endianness(alg)`, the spec's `E` (R13). -/
def Alg.outputEndianness (a : Alg) : Endian := a.row.outputEndianness

/-- `family(alg)` (R141). -/
def Alg.family (a : Alg) : Family := a.row.family

/-- `initial_state(alg)`, the spec's `IV` (R13, R31). -/
def Alg.initialState (a : Alg) : List Word := a.row.initialState

end Sys2Proof
end

