-- ==== Sys2Proof/Machine/State.lean ====
section
/-! DEFINITION. Everything the spec gives the machine: the six registers of one engine (spec/10_state.md R20), the
parameters of its step (spec/00_scope.md R9, R16) and the host interface (spec/20_memory.md R60,
spec/30_encoding.md R90). Plain data throughout. -/

namespace Sys2Proof.Machine

/-- The lifecycle of the engine (R22); the value 3 of the 2-bit register never occurs (R20), so it has no name. -/
inductive Phase
  | unbound
  | active
  | terminal
deriving DecidableEq, Repr

/-- The registers of one engine instance (R20). -/
structure Engine where
  /-- Lifecycle (R22). -/
  phase : Phase
  /-- The bound row of the Algorithm Parameter Table (R21). -/
  alg : Alg
  /-- The running hash state, word 0 first (R23). -/
  state : List Word
  /-- The in-progress block, stale bytes included (R24, R28). -/
  block : Memory
  /-- Number of valid bytes in `block` (R26). -/
  curBlockLen : BitVec 8
  /-- Bytes absorbed by completed compressions; the whole message's bytes after FINISH (R27). -/
  compressedLen : BitVec 128
deriving DecidableEq, Repr

/-- The transform unit of one family: whether it is wired, `XFORM_PRESENT[f]`, and which transform it supplies
(R9, R142, R213). -/
inductive TransformUnit
  /-- Not wired: `XFORM_PRESENT[f]` is false. -/
  | absent
  /-- Wired, and supplies the uninterpreted transform of Config. -/
  | supplied
  /-- Wired, and supplies the TOY transform of spec/95_test_vectors.md part 2. -/
  | toy
  /-- Wired, and supplies the published round function that R146 names. -/
  | published
deriving DecidableEq, Repr

/-- The transform units of the machine, one per family (R141): a parameter of the step (R16) that no step writes. -/
structure Units where
  sha1 : TransformUnit
  sha256 : TransformUnit
  sha512 : TransformUnit
  l128 : TransformUnit
deriving DecidableEq, Repr

/-- A command: header and payload (R90). -/
structure Command where
  header : PortWord
  payload : List Byte
deriving DecidableEq, Repr

/-- A response: response word and digest payload (R90, R100). -/
structure Response where
  word : PortWord
  digest : List Byte
deriving DecidableEq, Repr

/-- What the host does to the engine. -/
inductive HostAction
  /-- Issues one command, and waits for its response (R75, R246). -/
  | command (c : Command)
  /-- Resets the engine, between commands (R240, R241). -/
  | hardReset
  /-- Several hosts drive the engine at once (R78, R246). -/
  | overlapping (cs : List Command)
deriving DecidableEq, Repr

/-- The error codes (R102, R210). -/
inductive ErrorCode
  | misuse
  | badAlg
  | noTransform
  | notInit
  | badCmd
  | lenOverflow
deriving DecidableEq, Repr

/-- The machine: one engine, its transform units, and its host interface. -/
structure State where
  /-- The registers of the engine. -/
  engine : Engine
  /-- The transform units that are wired (the model's own field for the parameters of R9). -/
  units : Units
  /-- What the host does next, oldest first (the model's own field for the inputs of R16). -/
  inbox : List HostAction
  /-- The payload of the command being executed (R60, R79); the model's own field. -/
  payload : List Byte
  /-- The response to the last command answered (R90, R101); the model's own field. -/
  response : Option Response
deriving DecidableEq, Repr

/-- The engine never stops: every command ends with a response, so there is no fault (spec/93_implementation_defined.md
part 1, R252). -/
inductive Fault
deriving DecidableEq, Repr

/-- What the model gives no meaning. -/
inductive Refusal
  /-- Raised by an arm of exec that has no meaning yet. Safe. -/
  | notModelled (mnemonic : String)
  /-- Raised by every command whose payload has not the length its header gives: the spec asks a model to refuse
  such a transaction (R94, R247). Safe. -/
  | misframed
  /-- Raised by the step when several hosts drive the engine at once: the spec asks a model to refuse it (R78,
  R246). Safe. -/
  | overlappingCommands
deriving DecidableEq, Repr

/-- What a step or a meaning answers. -/
abbrev Result := Host.Outcome State Fault Refusal

/-- The registers after hardware reset (R35, R240): `phase` is UNBOUND. The spec leaves the other five unspecified;
their values here are a DESIGN CHOICE (notes/assumptions/4.md). -/
def Engine.reset : Engine where
  phase := .unbound
  alg := .sha1
  state := [0, 0, 0, 0, 0]
  block := []
  curBlockLen := 0
  compressedLen := 0

/-- Every family's unit is wired (the default of R9) and supplies the uninterpreted transform. -/
def Units.default : Units := ⟨.supplied, .supplied, .supplied, .supplied⟩

/-- The machine right after reset: the engine is idle and waits for a command (R240). -/
def State.reset : State where
  engine := Engine.reset
  units := Units.default
  inbox := []
  payload := []
  response := none

end Sys2Proof.Machine
end

