-- ==== Sys2Proof/Machine/Transform.lean ====
section
/-! DEFINITION. The transform units and the selection of a family's transform (spec/41_compress.md R140 to R143,
spec/95_test_vectors.md part 2). -/

namespace Sys2Proof.Machine

/-- Whether a unit is wired, `XFORM_PRESENT[f]` (R9, R142). -/
def TransformUnit.present : TransformUnit → Bool
  | .absent => false
  | .supplied => true
  | .toy => true
  | .published => true

/-- The unit of a family. -/
def Units.of (u : Units) : Family → TransformUnit
  | .sha1 => u.sha1
  | .sha256 => u.sha256
  | .sha512 => u.sha512
  | .l128 => u.l128

/-- `XFORM_PRESENT[f]` (R9, R213). -/
def Units.present (u : Units) (f : Family) : Bool := (u.of f).present

/-- The TOY transform's weighted sum of a block: `sum of (j + 1) * block[j]` (95 part 2). -/
def toySum (bs : List Byte) : Nat := (bs.mapIdx fun j b => (j + 1) * b.toNat).sum

/-- The TOY transform: `state'[i] <- (33 * state[i] + S + i) mod 2^(8 * WS)` (95 part 2). -/
def toyTransform (w n b : Nat) : Transform w n b := fun st blk =>
  Vector.ofFn fun i => BitVec.ofNat w (33 * st[i].toNat + toySum blk.toList + i)

/-- The transform a unit supplies, out of a family's uninterpreted and published ones. A unit that is not wired is
never asked: a session exists only where the unit is wired (R142). -/
def TransformUnit.transform (unit : TransformUnit) {w n b : Nat} (uninterpreted published : Transform w n b) :
    Transform w n b :=
  match unit with
  | .absent => uninterpreted
  | .supplied => uninterpreted
  | .toy => toyTransform w n b
  | .published => published

/-- The first `n` words of a state, each in `w` bits: the form a transform takes (R141). -/
def wordsIn (w n : Nat) (st : List Word) : Vector (BitVec w) n := Vector.ofFn fun i => (st.getD i 0).setWidth w

/-- The first `b` bytes of a block as a transform takes them (R141). -/
def bytesIn (b : Nat) (blk : List Byte) : Vector Byte b := Vector.ofFn fun i => blk.getD i 0

/-- The words a transform returns, as the state buffer holds them. -/
def wordsOut {w n : Nat} (v : Vector (BitVec w) n) : List Word := v.toList.map (·.setWidth 64)

/-- A transform at work on the engine's own buffers. -/
def Transform.onBuffers {w n b : Nat} (t : Transform w n b) (st : List Word) (blk : List Byte) : List Word :=
  wordsOut (t (wordsIn w n st) (bytesIn b blk))

/-- `T[f](state, block)` (R140, R141, R143). -/
def Units.apply (u : Units) (f : Family) (st : List Word) (blk : List Byte) : List Word :=
  match f with
  | .sha1 => Transform.onBuffers (u.sha1.transform Config.transformSha1 Published.sha1) st blk
  | .sha256 => Transform.onBuffers (u.sha256.transform Config.transformSha256 Published.sha256) st blk
  | .sha512 => Transform.onBuffers (u.sha512.transform Config.transformSha512 Published.sha512) st blk
  | .l128 => Transform.onBuffers (u.l128.transform Config.transformL128 Published.md5) st blk

end Sys2Proof.Machine
end

