-- ==== Sys2Proof/Machine/Ops.lean ====
section
/-! DEFINITION. The operations the commands share: byte order, the response, rejecting a command, the buffers,
COMPRESS and CODEC, taking a command, hardware reset (spec/00_scope.md R12, R13, spec/30_encoding.md R100,
spec/41_compress.md R143, spec/44_codec.md R195, spec/60_exceptions.md R216, spec/70_reset_and_hazards.md R241). -/

namespace Sys2Proof.Machine

/-- `enc(v, n, e)`: the `n` bytes of `v` (R12). -/
def enc (v n : Nat) : Endian → List Byte
  | .big => (List.range n).map fun i => BitVec.ofNat 8 (v / 256 ^ (n - 1 - i) % 256)
  | .little => (List.range n).map fun i => BitVec.ofNat 8 (v / 256 ^ i % 256)

/-- `dec(s, e)`: the integer whose bytes are `s` (R12). -/
def dec (s : List Byte) : Endian → Nat
  | .big => s.foldl (fun v b => v * 256 + b.toNat) 0
  | .little => s.foldr (fun b v => v * 256 + b.toNat) 0

/-- The `PHASE` field's numbers (R20, R100). -/
def Phase.code : Phase → Nat
  | .unbound => 0
  | .active => 1
  | .terminal => 2

/-- The `ERR` field's numbers (R102). -/
def ErrorCode.code : ErrorCode → Nat
  | .misuse => 1
  | .badAlg => 2
  | .noTransform => 3
  | .notInit => 4
  | .badCmd => 5
  | .lenOverflow => 6

/-- `R = ERR + PHASE * 16 + DLEN * 256` (R100). -/
def responseWord (err : Nat) (phase : Phase) (dlen : Nat) : PortWord :=
  BitVec.ofNat 32 (err + phase.code * 16 + dlen * 256)

/-- `raise E_X`, the engine's trap entry: no register is written, the response carries the code and the unchanged
`phase`, and there is no digest (R216). -/
def State.raise (err : ErrorCode) (s : State) : State :=
  { s with payload := [], response := some ⟨responseWord err.code s.engine.phase 0, []⟩ }

/-- `respond(OK, d)`: the command ends with the registers `e` and the digest `d` (R13, R100, R101). -/
def State.respondOk (e : Engine) (d : List Byte) (s : State) : State :=
  { s with engine := e, payload := [], response := some ⟨responseWord 0 e.phase d.length, d⟩ }

/-- `MemWrite(addr, len(v), v)` on the block buffer (R13). -/
def Engine.memWrite (addr : Nat) (v : List Byte) (e : Engine) : Engine :=
  { e with block := e.block.writeBytes addr v }

/-- `cur_block_len <- n` (R13). -/
def Engine.setCurBlockLen (n : Nat) (e : Engine) : Engine := { e with curBlockLen := BitVec.ofNat 8 n }

/-- `compressed_len <- n` (R13). -/
def Engine.setCompressedLen (n : Nat) (e : Engine) : Engine := { e with compressedLen := BitVec.ofNat 128 n }

/-- `MemRead(0, block_length)`: the whole block, as the transform takes it (R67, R143). -/
def Engine.blockBytes (e : Engine) : List Byte := e.block.readBytes 0 e.alg.blockLength

/-- COMPRESS: `state <- T[family(alg)](state, block)` and nothing else (R143). -/
def Engine.compress (u : Units) (e : Engine) : Engine :=
  { e with state := u.apply e.alg.family e.state e.blockBytes }

/-- CODEC: every word of the state in `output_endianness`, word 0 first (R195). -/
def Engine.codec (e : Engine) : List Byte :=
  (List.range e.alg.stateWidth).flatMap fun i => enc (e.state.getD i 0).toNat e.alg.wordSize e.alg.outputEndianness

/-- The engine takes a command: the host's next action is consumed, and the payload is captured by value (R79, R90). -/
def State.capture (c : Command) (rest : List HostAction) (s : State) : State :=
  { s with inbox := rest, payload := c.payload }

/-- Hardware reset between commands: the session is discarded, and the registers are as after any reset (R240, R241);
what the spec leaves unspecified has the named reset values (notes/assumptions/5.md). -/
def State.hardReset (rest : List HostAction) (s : State) : State :=
  { s with engine := Engine.reset, inbox := rest, payload := [], response := none }

/-- A header word and the zero payload of the length it gives, placed as the host's next action. -/
def State.placeCommand (h : PortWord) (s : State) : State :=
  { s with inbox := .command ⟨h, zeroBytes (payloadLength h)⟩ :: s.inbox }

end Sys2Proof.Machine
end

