-- ==== Sys2Proof/Machine/Flags.lean ====
section
/-! DEFINITION. The conditions the engine tests: its one flag, the admission tests, and the fit test
(spec/10_state.md R29, spec/46_sequencing.md R185). -/

namespace Sys2Proof.Machine

/-- The flag `finished`: `phase = TERMINAL` (R22, R29). -/
def Engine.finished (e : Engine) : Bool := e.phase == .terminal

/-- The phase test of UPDATE, FINISH and ONESHOT, and the error it gives (R211, R214, R218). -/
def Engine.phaseError (e : Engine) : Option ErrorCode :=
  match e.phase with
  | .unbound => some .notInit
  | .active => none
  | .terminal => some .misuse

/-- The length bound: `(compressed_len + cur_block_len + n) * 8 >= 2^(8 * L)` (R160, R217). -/
def Engine.lengthOverflows (n : Nat) (e : Engine) : Bool :=
  decide (2 ^ (8 * e.alg.lengthCounterWidth) ≤ (e.compressedLen.toNat + e.curBlockLen.toNat + n) * 8)

/-- The admission tests of UPDATE and ONESHOT of `n` bytes, in their order (R155, R205, R218). -/
def Engine.absorbError (n : Nat) (e : Engine) : Option ErrorCode :=
  match e.phaseError with
  | some err => some err
  | none => if e.lengthOverflows n then some .lenOverflow else none

/-- The fit test of finalization step 2: `cur_block_len > B - L`, after the marker (R172). -/
def Engine.spills (e : Engine) : Bool :=
  decide (e.alg.blockLength - e.alg.lengthCounterWidth < e.curBlockLen.toNat)

end Sys2Proof.Machine
end

