-- ==== Sys2Proof/Machine/Operands.lean ====
section
/-! DEFINITION. The one operand a command has: its payload, of exactly the length the header gives
(spec/30_encoding.md R94, spec/70_reset_and_hazards.md R247). -/

namespace Sys2Proof.Machine

/-- A command whose header gives `n` payload bytes, with what it does on its payload. A transaction whose payload
has another length is no command of the interface, and the model refuses it (R94, R247). -/
def withPayload (n : Nat) (s : State) (command : List Byte → State) : Result :=
  if s.payload.length = n then .next (command s.payload) else .refused .misframed

end Sys2Proof.Machine
end

