-- ==== Sys2Proof/Machine/Finish.lean ====
section
/-! DEFINITION. FINISH: the padding scheduler and finalization (spec/43_finish.md R170 to R184). -/

namespace Sys2Proof.Machine

/-- Step 1: the marker byte `0x80` at `cur_block_len`; the partial block's bytes are counted (R171). -/
def Engine.appendMarker (e : Engine) : Engine :=
  ((e.memWrite e.curBlockLen.toNat [0x80]).setCompressedLen
    (e.compressedLen.toNat + e.curBlockLen.toNat)).setCurBlockLen (e.curBlockLen.toNat + 1)

/-- Step 2: the extra padding block, when the length field does not fit after the marker (R172, R173). -/
def Engine.extraBlock (u : Units) (e : Engine) : Engine :=
  if e.spills then
    ((e.memWrite e.curBlockLen.toNat (zeroBytes (e.alg.blockLength - e.curBlockLen.toNat))).compress u).setCurBlockLen 0
  else e

/-- Step 3: zeros up to the length field (R174). -/
def Engine.zeroFill (e : Engine) : Engine :=
  e.memWrite e.curBlockLen.toNat
    (zeroBytes (e.alg.blockLength - e.alg.lengthCounterWidth - e.curBlockLen.toNat))

/-- Step 4: the bit length in the last `L` bytes, in `output_endianness` (R175, R176). -/
def Engine.writeLength (e : Engine) : Engine :=
  e.memWrite (e.alg.blockLength - e.alg.lengthCounterWidth)
    (enc (e.compressedLen.toNat * 8) e.alg.lengthCounterWidth e.alg.outputEndianness)

/-- Steps 1 to 5: pad and compress the last block or the last two (R170, R177). -/
def Engine.padAndCompress (u : Units) (e : Engine) : Engine :=
  (((e.appendMarker.extraBlock u).zeroFill).writeLength).compress u

/-- Step 7: `phase <- TERMINAL` (R179). -/
def Engine.terminate (e : Engine) : Engine := { e with phase := .terminal }

/-- FINALIZE: the registers it leaves and the digest it returns (R170, R179). -/
def Engine.finalize (u : Units) (e : Engine) : Engine × List Byte :=
  ((e.padAndCompress u).terminate, (e.padAndCompress u).codec)

/-- FINISH (R170, R184). -/
def finishSession (s : State) : State :=
  match s.engine.phaseError with
  | some err => s.raise err
  | none => s.respondOk (s.engine.finalize s.units).1 (s.engine.finalize s.units).2

/-- `FINISH` (R170). -/
def execFinish (s : State) : Result := withPayload 0 s fun _ => finishSession s

end Sys2Proof.Machine
end

