-- ==== Sys2Proof/Machine/Init.lean ====
section
/-! DEFINITION. INIT, the eight constructors (spec/40_init.md R120 to R131). -/

namespace Sys2Proof.Machine

/-- The registers of a new session of an algorithm (R34, R120). -/
def Engine.fresh (a : Alg) : Engine where
  phase := .active
  alg := a
  state := a.initialState
  block := Memory.writeBytes [] 0 (zeroBytes a.blockLength)
  curBlockLen := 0
  compressedLen := 0

/-- INIT of a supported algorithm: its transform must be wired, and then a session is created (R120, R213). -/
def initSession (a : Alg) (s : State) : State :=
  if s.units.present a.family then s.respondOk (Engine.fresh a) [] else s.raise .noTransform

/-- `INIT.SHA1` (R121). -/
def execInitSha1 (s : State) : Result := withPayload 0 s fun _ => initSession .sha1 s

/-- `INIT.SHA224` (R122). -/
def execInitSha224 (s : State) : Result := withPayload 0 s fun _ => initSession .sha224 s

/-- `INIT.SHA256` (R123). -/
def execInitSha256 (s : State) : Result := withPayload 0 s fun _ => initSession .sha256 s

/-- `INIT.SHA384` (R124). -/
def execInitSha384 (s : State) : Result := withPayload 0 s fun _ => initSession .sha384 s

/-- `INIT.SHA512` (R125). -/
def execInitSha512 (s : State) : Result := withPayload 0 s fun _ => initSession .sha512 s

/-- `INIT.SHA512_224` (R126). -/
def execInitSha512_224 (s : State) : Result := withPayload 0 s fun _ => initSession .sha512_224 s

/-- `INIT.SHA512_256` (R127). -/
def execInitSha512_256 (s : State) : Result := withPayload 0 s fun _ => initSession .sha512_256 s

/-- `INIT.LEGACY128` (R128). -/
def execInitLegacy128 (s : State) : Result := withPayload 0 s fun _ => initSession .legacy128 s

end Sys2Proof.Machine
end

