-- ==== Sys2Proof/Machine/Update.lean ====
section
/-! DEFINITION. UPDATE and the ABSORB loop (spec/42_update.md R155 to R160). -/

namespace Sys2Proof.Machine

/-- The block-full test at the end of an iteration of ABSORB: compress, restart the block, count it (R157, R158). -/
def Engine.flushFull (u : Units) (e : Engine) : Engine :=
  if e.curBlockLen.toNat = e.alg.blockLength then
    ((e.compress u).setCurBlockLen 0).setCompressedLen (e.compressedLen.toNat + e.alg.blockLength)
  else e

/-- `take <- min(B - cur_block_len, n - pos)`, with `left` the payload bytes from `pos` on (R157). -/
def Engine.take (left : List Byte) (e : Engine) : Nat :=
  min (e.alg.blockLength - e.curBlockLen.toNat) left.length

/-- One iteration of ABSORB: copy `take` bytes at `cur_block_len`, advance it, and flush a full block (R157). -/
def Engine.absorbRun (u : Units) (left : List Byte) (e : Engine) : Engine :=
  ((e.memWrite e.curBlockLen.toNat (left.take (e.take left))).setCurBlockLen
    (e.curBlockLen.toNat + e.take left)).flushFull u

/-- The loop of ABSORB, at most `fuel` iterations, on the payload bytes that are left (R157). -/
def absorbLoop (u : Units) : Nat → List Byte → Engine → Engine
  | 0, _, e => e
  | fuel + 1, left, e =>
    if left.isEmpty then e else absorbLoop u fuel (left.drop (e.take left)) (e.absorbRun u left)

/-- ABSORB (R157). Every iteration takes at least one byte while `cur_block_len < B`, so as many iterations as there
are bytes are enough. -/
def Engine.absorb (u : Units) (p : List Byte) (e : Engine) : Engine := absorbLoop u p.length p e

/-- UPDATE on its payload (R155). -/
def updateSession (s : State) (p : List Byte) : State :=
  match s.engine.absorbError p.length with
  | some err => s.raise err
  | none => s.respondOk (s.engine.absorb s.units p) []

/-- `UPDATE` (R155). -/
def execUpdate (len : Nat) (s : State) : Result := withPayload len s fun p => updateSession s p

end Sys2Proof.Machine
end

