-- ==== Sys2Proof/Machine/Oneshot.lean ====
section
/-! DEFINITION. ONESHOT (spec/45_oneshot.md R205 to R208). -/

namespace Sys2Proof.Machine

/-- ONESHOT on its payload: the tests of UPDATE, then ABSORB and FINALIZE (R205, R207). -/
def oneshotSession (s : State) (p : List Byte) : State :=
  match s.engine.absorbError p.length with
  | some err => s.raise err
  | none =>
    s.respondOk ((s.engine.absorb s.units p).finalize s.units).1 ((s.engine.absorb s.units p).finalize s.units).2

/-- `ONESHOT` (R205). -/
def execOneshot (len : Nat) (s : State) : Result := withPayload len s fun p => oneshotSession s p

end Sys2Proof.Machine
end

