-- ==== Sys2Proof/Machine/Dispatch.lean ====
section
/-! DEFINITION. One arm per command (spec/30_encoding.md R96). -/

namespace Sys2Proof.Machine

-- What each command does on the state, its payload captured.
def exec (i : Instr) (s : State) : Host.Outcome State Fault Refusal :=
  match i with
  | .initSha1 => Sys2Proof.Machine.execInitSha1 s
  | .initSha224 => Sys2Proof.Machine.execInitSha224 s
  | .initSha256 => Sys2Proof.Machine.execInitSha256 s
  | .initSha384 => Sys2Proof.Machine.execInitSha384 s
  | .initSha512 => Sys2Proof.Machine.execInitSha512 s
  | .initSha512_224 => Sys2Proof.Machine.execInitSha512_224 s
  | .initSha512_256 => Sys2Proof.Machine.execInitSha512_256 s
  | .initLegacy128 => Sys2Proof.Machine.execInitLegacy128 s
  | .update len => Sys2Proof.Machine.execUpdate len s
  | .finish => Sys2Proof.Machine.execFinish s
  | .oneshot len => Sys2Proof.Machine.execOneshot len s

end Sys2Proof.Machine
end

