-- ==== Sys2Proof/Machine/Reject.lean ====
section
/-! DEFINITION. The header words that are no command of the table (spec/30_encoding.md R97, spec/60_exceptions.md R212,
R215). -/

namespace Sys2Proof.Machine

/-- INIT of an unsupported algorithm is rejected with `E_BAD_ALG` (R97, R212). -/
def rejectUnsupported (s : State) : Result := withPayload 0 s fun _ => s.raise .badAlg

/-- An illegal word is rejected with `E_BAD_CMD` (R97, R215). -/
def rejectIllegal (s : State) : Result := withPayload 0 s fun _ => s.raise .badCmd

end Sys2Proof.Machine
end

