-- ==== Sys2Proof/Machine/Step.lean ====
section
/-! DEFINITION. One step: the host's next action, to completion (spec/00_scope.md R15, spec/20_memory.md R75). -/

namespace Sys2Proof.Machine

/-- A decoded command at work (R98, R215): its meaning, or its rejection. -/
def execDecoded (d : Decoded) (s : State) : Host.Outcome State Fault Refusal :=
  match d with
  | .command i => exec i s
  | .initUnsupported _ => rejectUnsupported s
  | .illegal => rejectIllegal s

/-- One step. With nothing to do the engine is idle and holds its state (R227, R240); a command is taken, decoded and
executed to completion (R75); a hardware reset falls between commands (R241); several hosts at once are refused
(R78, R246). -/
def step (s : State) : Host.Outcome State Fault Refusal :=
  match s.inbox with
  | [] => .next s
  | .command c :: rest => execDecoded (decode c.header) (s.capture c rest)
  | .hardReset :: rest => .next (s.hardReset rest)
  | .overlapping _ :: _ => .refused .overlappingCommands

/-- The state with a header word of `nbits` bits, and a zero payload of the length it gives, as the host's next
command: the very next step takes it. -/
def State.withFetchWord (s : State) (nbits w : Nat) : State :=
  s.placeCommand (BitVec.ofNat 32 (w % 2 ^ nbits))

end Sys2Proof.Machine
end

