-- ==== Sys2Proof/Safety.lean ====
section
/-! DEFINITION. The terms claims use: the invariant of the machine, what two machines the host cannot tell apart have in
common, and the padded message and its chaining as the closed forms of the spec say them (spec/10_state.md R20 to R28,
spec/42_update.md R161, spec/43_finish.md R178). -/

namespace Sys2Proof.Machine

/-- The buffers have the sizes of the bound row, and the write pointer is inside the block: `block` is canonical and
lists only offsets below `block_length`, `state` has `state_width` words of `8 * word_size` bits, and
`cur_block_len < block_length` (R20, R24, R26, R33). -/
abbrev Engine.Shaped (e : Engine) : Prop :=
  e.block.wf ∧ (∀ c ∈ e.block, c.1 < e.alg.blockLength) ∧ e.state.length = e.alg.stateWidth ∧
    (∀ w ∈ e.state, w.toNat < 2 ^ (8 * e.alg.wordSize)) ∧ e.curBlockLen.toNat < e.alg.blockLength

/-- The message counted so far has a bit length that fits its field (R27), and in the ACTIVE phase the counted blocks are
whole ones (R27). -/
abbrev Engine.Counted (e : Engine) : Prop :=
  (e.phase = .active →
    e.compressedLen.toNat % e.alg.blockLength = 0 ∧
      (e.compressedLen.toNat + e.curBlockLen.toNat) * 8 < 2 ^ (8 * e.alg.lengthCounterWidth)) ∧
  (e.phase = .terminal → e.compressedLen.toNat * 8 < 2 ^ (8 * e.alg.lengthCounterWidth))

/-- The invariant of the machine: the buffers and counters as above, and a session's transform unit is wired (R142). -/
abbrev State.Inv (s : State) : Prop :=
  s.engine.Shaped ∧ s.engine.Counted ∧
    (s.engine.phase ≠ .unbound → s.units.present s.engine.alg.family = true)

/-- Two engines of one phase that differ at most in what no command reads: in the ACTIVE phase the bytes of `block` at or
above `cur_block_len` (R28), in the other phases all registers but `phase` (R35, R36). -/
def Engine.Alike (e f : Engine) : Prop :=
  e.phase = f.phase ∧
    (e.phase = .active →
      e.alg = f.alg ∧ e.state = f.state ∧ e.curBlockLen = f.curBlockLen ∧ e.compressedLen = f.compressedLen ∧
        ∀ i < e.curBlockLen.toNat, e.block.read i = f.block.read i)

/-- Two machines whose engines are alike, with the same units, host and last response. -/
def State.Alike (s t : State) : Prop :=
  s.engine.Alike t.engine ∧ s.units = t.units ∧ s.inbox = t.inbox ∧ s.payload = t.payload ∧ s.response = t.response

/-- Block number `j` of a byte sequence: `w[j*B .. (j+1)*B)` (R161). -/
def blockAt (B : Nat) (w : List Byte) (j : Nat) : List Byte := (w.drop (j * B)).take B

/-- The first `k` blocks of `w` chained through the transform of an algorithm's family, from `st`:
`T(... T(T(st, w[0..B)), w[B..2B)) ..., w[(k-1)*B .. k*B))` (R161). -/
def chain (u : Units) (a : Alg) (st : List Word) (w : List Byte) (k : Nat) : List Word :=
  (List.range k).foldl (fun acc j => u.apply a.family acc (blockAt a.blockLength w j)) st

/-- What is appended to a message of `n` bytes: `80`, `z` zero bytes with `z = (B - L - 1 - r) mod B` and
`r = n mod B`, and the length field (R178). -/
def padding (a : Alg) (n : Nat) : List Byte :=
  0x80 :: zeroBytes ((2 * a.blockLength - a.lengthCounterWidth - 1 - n % a.blockLength) % a.blockLength) ++
    enc (8 * n) a.lengthCounterWidth a.outputEndianness

/-- The number of blocks of a padded message of `n` bytes: `ceil((n + 1 + L) / B)` (R144). -/
def paddedBlocks (a : Alg) (n : Nat) : Nat :=
  (n + 1 + a.lengthCounterWidth + (a.blockLength - 1)) / a.blockLength

/-- The words of a state, serialised one after the other in an algorithm's byte order (R195). -/
def serialise (a : Alg) (st : List Word) : List Byte :=
  (List.range a.stateWidth).flatMap fun i => enc (st.getD i 0).toNat a.wordSize a.outputEndianness

/-- The digest of a message under an algorithm, as the Merkle–Damgård construction has it: the padded message's blocks
chained from the initial state, and the whole last state serialised (R144, R178, R195, R197). -/
def messageDigest (u : Units) (a : Alg) (message : List Byte) : List Byte :=
  serialise a (chain u a a.initialState (message ++ padding a message.length) (paddedBlocks a message.length))

/-- A successful answer: the error field of the response is zero (R100, R102). -/
def State.answeredOk (s : State) : Bool :=
  match s.response with
  | some r => r.word.toNat % 16 == 0
  | none => false

/-- The digest of the last response, empty where there is none (R101). -/
def State.digest (s : State) : List Byte :=
  match s.response with
  | some r => r.digest
  | none => []

/-- The lifecycle table (R186): the error number and the phase after, from the decoded header, the phase before, whether
the transform unit of an INIT's family is wired, and whether the length bound is exceeded. -/
def lifecycle (d : Decoded) (before : Phase) (wired tooLong : Bool) : Nat × Phase :=
  match d, before with
  | .command (.update _), .unbound => (4, .unbound)
  | .command (.update _), .active => if tooLong then (6, .active) else (0, .active)
  | .command (.update _), .terminal => (1, .terminal)
  | .command .finish, .unbound => (4, .unbound)
  | .command .finish, .active => (0, .terminal)
  | .command .finish, .terminal => (1, .terminal)
  | .command (.oneshot _), .unbound => (4, .unbound)
  | .command (.oneshot _), .active => if tooLong then (6, .active) else (0, .terminal)
  | .command (.oneshot _), .terminal => (1, .terminal)
  | .command _, p => if wired then (0, .active) else (3, p)
  | .initUnsupported _, p => (2, p)
  | .illegal, p => (5, p)

/-- The family a header's command asks for: that of an INIT's algorithm (R141, R186). -/
def familyAsked : Decoded → Option Family
  | .command .initSha1 => some .sha1
  | .command .initSha224 => some .sha256
  | .command .initSha256 => some .sha256
  | .command .initSha384 => some .sha512
  | .command .initSha512 => some .sha512
  | .command .initSha512_224 => some .sha512
  | .command .initSha512_256 => some .sha512
  | .command .initLegacy128 => some .l128
  | .command (.update _) => none
  | .command .finish => none
  | .command (.oneshot _) => none
  | .initUnsupported _ => none
  | .illegal => none

/-- `INIT` of an algorithm, as the host sends it (R93, R96). -/
def initCommand (a : Alg) : Command := ⟨headerOf 1 a.number 0, []⟩

/-- `UPDATE` of a byte sequence, as the host sends it (R94, R96). -/
def updateCommand (p : List Byte) : Command := ⟨headerOf 2 0 p.length, p⟩

/-- `FINISH`, as the host sends it (R96). -/
def finishCommand : Command := ⟨headerOf 3 0 0, []⟩

/-- `ONESHOT` of a byte sequence, as the host sends it (R94, R96). -/
def oneshotCommand (p : List Byte) : Command := ⟨headerOf 4 0 p.length, p⟩

end Sys2Proof.Machine
end

