-- ==== Sys2Proof/Certificates/Slice0/Obligations.lean ====
section
/-! DEFINITION. What is claimed of the model, for the provers: statements about the spec's numbered rules. Names of the
spec are used throughout: `B = block_length`, `L = length_counter_width`, `SW = state_width`, `WS = word_size`, `c` or `r`
for `cur_block_len` and `m` for `compressed_len` on entry. Where the spec marks a rule `[derived: from ...]` (R96, R98, R103,
R132, R144, R159, R161, R162, R178, R183, R186, R206), the statement has the spec's own derivation for its ground, beside the
rules it is derived from. -/

open Sys2Proof Sys2Proof.Machine

/-! ## Encoding -/

/-- Every well-formed command is read back from its header word (R91, R96, R98). -/
def Obligations.DecodeOfEncode : Prop :=
  ∀ i : Instr, i.WellFormed → decode (encode i) = .command i

/-- A header word that decodes to a command is that command's one encoding (R91, R96, R98). -/
def Obligations.EncodeOfDecode : Prop :=
  ∀ (h : PortWord) (i : Instr), decode h = .command i → i.WellFormed ∧ encode i = h

/-- The decoder of R98, clause by clause, on the fields of R91. -/
def Obligations.DecoderIsTotalFunctionOfFields : Prop :=
  ∀ (h : PortWord) (opc alg len : Nat), opc < 16 → alg < 16 → len < 2 ^ 24 →
    h.toNat = opc * 2 ^ 28 + alg * 2 ^ 24 + len →
    decode h =
      if opc = 1 then
        if len ≠ 0 then .illegal
        else if alg = 0 then .command .initSha1
        else if alg = 1 then .command .initSha224
        else if alg = 2 then .command .initSha256
        else if alg = 3 then .command .initSha384
        else if alg = 4 then .command .initSha512
        else if alg = 5 then .command .initSha512_224
        else if alg = 6 then .command .initSha512_256
        else if alg = 7 then .command .initLegacy128
        else .initUnsupported alg
      else if opc = 2 then (if alg ≠ 0 then .illegal else .command (.update len))
      else if opc = 3 then (if alg ≠ 0 ∨ len ≠ 0 then .illegal else .command .finish)
      else if opc = 4 then (if alg ≠ 0 then .illegal else .command (.oneshot len))
      else .illegal

/-- The command table (R96): its rows are those of the rule; a word that selects a row decodes to that row's command,
whose `LEN` is bits 23:0 where the row leaves them free; a word that decodes to a command selects that command's row; and
at most one row matches any word. -/
def Obligations.CommandTableSelectsRows : Prop :=
  commandTable.map (fun r => (r.mnemonic, r.pattern.toNat, r.mask.toNat)) =
    [("INIT.SHA1", 0x10000000, 0xFFFFFFFF), ("INIT.SHA224", 0x11000000, 0xFFFFFFFF),
     ("INIT.SHA256", 0x12000000, 0xFFFFFFFF), ("INIT.SHA384", 0x13000000, 0xFFFFFFFF),
     ("INIT.SHA512", 0x14000000, 0xFFFFFFFF), ("INIT.SHA512_224", 0x15000000, 0xFFFFFFFF),
     ("INIT.SHA512_256", 0x16000000, 0xFFFFFFFF), ("INIT.LEGACY128", 0x17000000, 0xFFFFFFFF),
     ("UPDATE", 0x20000000, 0xFF000000), ("FINISH", 0x30000000, 0xFFFFFFFF), ("ONESHOT", 0x40000000, 0xFF000000)] ∧
  ∀ h : PortWord,
    (∀ r ∈ commandTable, h &&& r.mask = r.pattern →
      ∃ i, decode h = .command i ∧ i.mnemonic = r.mnemonic ∧
        i.payloadLength = if r.mask = 0xFF000000 then h.toNat % 2 ^ 24 else 0) ∧
    (∀ i, decode h = .command i → ∃ r ∈ commandTable, h &&& r.mask = r.pattern ∧ r.mnemonic = i.mnemonic) ∧
    (∀ r ∈ commandTable, ∀ r' ∈ commandTable, h &&& r.mask = r.pattern → h &&& r'.mask = r'.pattern → r = r')

/-- The words that match no row (R97): the eight words of an unsupported INIT are rejected with `E_BAD_ALG`, every other
such word with `E_BAD_CMD`, and in both classes the registers are unchanged. -/
def Obligations.WordsOutsideTheTableAreRejected : Prop :=
  ∀ (s : State) (h : PortWord) (rest : List HostAction),
    (∀ r ∈ commandTable, h &&& r.mask ≠ r.pattern) → s.inbox = .command ⟨h, []⟩ :: rest →
    ∃ t, step s = .next t ∧ t.engine = s.engine ∧ t.units = s.units ∧ t.inbox = rest ∧
      t.response =
        some ⟨BitVec.ofNat 32 ((if h ∈ ([0x18000000, 0x19000000, 0x1A000000, 0x1B000000, 0x1C000000, 0x1D000000,
          0x1E000000, 0x1F000000] : List PortWord) then 2 else 5) + 16 * s.engine.phase.code), []⟩

/-- Header words written out from the encodings of R96, and words next to them (95 V10). -/
def Obligations.WrittenHeaderWordsDecode : Prop :=
  decode 0b00010000000000000000000000000000#32 = .command .initSha1 ∧
  decode 0b00010111000000000000000000000000#32 = .command .initLegacy128 ∧
  decode 0b00100000000000000000000000000011#32 = .command (.update 3) ∧
  decode 0b00100000111111111111111111111111#32 = .command (.update 16777215) ∧
  decode 0b00110000000000000000000000000000#32 = .command .finish ∧
  decode 0b01000000000000000000000000000011#32 = .command (.oneshot 3) ∧
  decode 0b00011000000000000000000000000000#32 = .initUnsupported 8 ∧
  decode 0b00011111000000000000000000000000#32 = .initUnsupported 15 ∧
  decode 0b00011000000000000000000000000001#32 = .illegal ∧
  decode 0b00100001000000000000000000000000#32 = .illegal ∧
  decode 0b00000000000000000000000000000000#32 = .illegal ∧
  decode 0b01010000000000000000000000000000#32 = .illegal

/-! ## INIT -/

/-- What one constructor rule of spec/40_init.md says: the encoding, the row it binds, the session it creates where the
row's transform unit is wired (all six registers, the response, and nothing else), and `E_NO_TRANSFORM`, with every
register as before, where it is not. -/
def Sys2Proof.Machine.BindsRow (i : Instr) (header : PortWord) (a : Alg) (number B SW WS L : Nat) (E : Endian)
    (f : Family) (words : List Word) : Prop :=
  decode header = .command i ∧ a.number = number ∧ a.blockLength = B ∧ a.stateWidth = SW ∧ a.wordSize = WS ∧
  a.lengthCounterWidth = L ∧ a.outputEndianness = E ∧ a.family = f ∧ words.length = SW ∧
  ∀ s : State, s.payload = [] →
    (s.units.present f = true →
      ∃ t, exec i s = .next t ∧ t.engine.phase = .active ∧ t.engine.alg = a ∧ t.engine.state = words ∧
        (∀ k, t.engine.block.read k = 0) ∧ t.engine.curBlockLen = 0 ∧ t.engine.compressedLen = 0 ∧
        t.response = some ⟨0x00000010, []⟩ ∧ t.payload = [] ∧ t.units = s.units ∧ t.inbox = s.inbox) ∧
    (s.units.present f = false →
      exec i s = .next { s with response := some ⟨BitVec.ofNat 32 (3 + 16 * s.engine.phase.code), []⟩ })

/-- `INIT.SHA1` (R121). -/
def Obligations.InitSha1BindsRow : Prop :=
  BindsRow .initSha1 0x10000000 .sha1 0 64 5 4 8 .big .sha1
    [0x67452301, 0xefcdab89, 0x98badcfe, 0x10325476, 0xc3d2e1f0]

/-- `INIT.SHA224` (R122). -/
def Obligations.InitSha224BindsRow : Prop :=
  BindsRow .initSha224 0x11000000 .sha224 1 64 8 4 8 .big .sha256
    [0xc1059ed8, 0x367cd507, 0x3070dd17, 0xf70e5939, 0xffc00b31, 0x68581511, 0x64f98fa7, 0xbefa4fa4]

/-- `INIT.SHA256` (R123). -/
def Obligations.InitSha256BindsRow : Prop :=
  BindsRow .initSha256 0x12000000 .sha256 2 64 8 4 8 .big .sha256
    [0x6a09e667, 0xbb67ae85, 0x3c6ef372, 0xa54ff53a, 0x510e527f, 0x9b05688c, 0x1f83d9ab, 0x5be0cd19]

/-- `INIT.SHA384` (R124). -/
def Obligations.InitSha384BindsRow : Prop :=
  BindsRow .initSha384 0x13000000 .sha384 3 128 8 8 16 .big .sha512
    [0xcbbb9d5dc1059ed8, 0x629a292a367cd507, 0x9159015a3070dd17, 0x152fecd8f70e5939,
     0x67332667ffc00b31, 0x8eb44a8768581511, 0xdb0c2e0d64f98fa7, 0x47b5481dbefa4fa4]

/-- `INIT.SHA512` (R125). -/
def Obligations.InitSha512BindsRow : Prop :=
  BindsRow .initSha512 0x14000000 .sha512 4 128 8 8 16 .big .sha512
    [0x6a09e667f3bcc908, 0xbb67ae8584caa73b, 0x3c6ef372fe94f82b, 0xa54ff53a5f1d36f1,
     0x510e527fade682d1, 0x9b05688c2b3e6c1f, 0x1f83d9abfb41bd6b, 0x5be0cd19137e2179]

/-- `INIT.SHA512_224` (R126). -/
def Obligations.InitSha512x224BindsRow : Prop :=
  BindsRow .initSha512_224 0x15000000 .sha512_224 5 128 8 8 16 .big .sha512
    [0x8c3d37c819544da2, 0x73e1996689dcd4d6, 0x1dfab7ae32ff9c82, 0x679dd514582f9fcf,
     0x0f6d2b697bd44da8, 0x77e36f7304c48942, 0x3f9d85a86a1d36c8, 0x1112e6ad91d692a1]

/-- `INIT.SHA512_256` (R127). -/
def Obligations.InitSha512x256BindsRow : Prop :=
  BindsRow .initSha512_256 0x16000000 .sha512_256 6 128 8 8 16 .big .sha512
    [0x22312194fc2bf72c, 0x9f555fa3c84c64c2, 0x2393b86b6f53b151, 0x963877195940eabd,
     0x96283ee2a88effe3, 0xbe5e1e2553863992, 0x2b0199fc2c85b8aa, 0x0eb72ddc81c52ca2]

/-- `INIT.LEGACY128` (R128). -/
def Obligations.InitLegacy128BindsRow : Prop :=
  BindsRow .initLegacy128 0x17000000 .legacy128 7 64 4 4 8 .little .l128
    [0x67452301, 0xefcdab89, 0x98badcfe, 0x10325476]

/-- A rejected INIT changes nothing (R131): whatever an INIT word raises, every register keeps its value. -/
def Obligations.RejectedInitChangesNothing : Prop :=
  ∀ (s t : State) (h : PortWord) (rest : List HostAction), h.toNat / 2 ^ 28 = 1 →
    s.inbox = .command ⟨h, []⟩ :: rest → step s = .next t → t.answeredOk = false →
    t.engine = s.engine ∧ t.units = s.units ∧ t.inbox = rest

/-- Two successful INITs of one algorithm, from any states, leave equal registers (R132). -/
def Obligations.AcceptedInitsLeaveEqualEngines : Prop :=
  ∀ (a : Alg) (s s' t t' : State), exec (Instr.init a) s = .next t → exec (Instr.init a) s' = .next t' →
    t.answeredOk = true → t'.answeredOk = true → t.engine = t'.engine

/-! ## COMPRESS and CODEC -/

/-- COMPRESS (R143): all `SW` words of `state` become the transform of (`state`, the whole block), whatever
`cur_block_len` is; no other register is written. -/
def Obligations.CompressWritesOnlyState : Prop :=
  ∀ (u : Units) (e : Engine),
    (e.compress u).state = u.apply e.alg.family e.state ((List.range e.alg.blockLength).map e.block.read) ∧
    (e.compress u).state.length = e.alg.stateWidth ∧
    (e.compress u).block = e.block ∧ (e.compress u).curBlockLen = e.curBlockLen ∧
    (e.compress u).compressedLen = e.compressedLen ∧ (e.compress u).phase = e.phase ∧ (e.compress u).alg = e.alg

/-- The dispatch (R141, R142): a supplied unit runs its family's uninterpreted transform of Config on exactly the family's
number of words and bytes, and no other family's. The four conclusions are one per family. That a unit is plain data of
State, and may supply Config's constant, is the model's choice (notes/assumptions/8.md). -/
def Obligations.SuppliedUnitsRunTheirFamilysTransform : Prop :=
  ∀ (u : Units) (st : List Word) (blk : List Byte),
    (∀ (v : Vector (BitVec 32) 5) (b : Vector Byte 64), u.sha1 = .supplied →
      st = v.toList.map (·.setWidth 64) → blk = b.toList →
      (u.apply .sha1 st blk).map (·.setWidth 32) = (Config.transformSha1 v b).toList) ∧
    (∀ (v : Vector (BitVec 32) 8) (b : Vector Byte 64), u.sha256 = .supplied →
      st = v.toList.map (·.setWidth 64) → blk = b.toList →
      (u.apply .sha256 st blk).map (·.setWidth 32) = (Config.transformSha256 v b).toList) ∧
    (∀ (v : Vector (BitVec 64) 8) (b : Vector Byte 128), u.sha512 = .supplied →
      st = v.toList → blk = b.toList →
      u.apply .sha512 st blk = (Config.transformSha512 v b).toList) ∧
    (∀ (v : Vector (BitVec 32) 4) (b : Vector Byte 64), u.l128 = .supplied →
      st = v.toList.map (·.setWidth 64) → blk = b.toList →
      (u.apply .l128 st blk).map (·.setWidth 32) = (Config.transformL128 v b).toList)

/-- CODEC (R195): byte `j` of word `i`, in both byte orders, and the length of the whole. -/
def Obligations.CodecSerialisesWordByWord : Prop :=
  ∀ e : Engine, e.codec.length = e.alg.stateWidth * e.alg.wordSize ∧
    ∀ i < e.alg.stateWidth, ∀ j < e.alg.wordSize,
      (e.codec.getD (i * e.alg.wordSize + j) 0).toNat =
        if e.alg = .legacy128 then (e.state.getD i 0).toNat / 256 ^ j % 256
        else (e.state.getD i 0).toNat / 256 ^ (e.alg.wordSize - 1 - j) % 256

/-! ## UPDATE -/

/-- The closed form of UPDATE (R155, R161): with `w = block[0 .. c) ++ P` and `k = len(w) div B`, an admitted UPDATE chains
exactly the `k` blocks of `w` from the entry state, leaves `len(w) mod B` bytes in the block and counts `k * B` bytes; the
bytes at or above the new pointer are stale; no other register, and nothing else of the machine, changes. -/
def Obligations.UpdateClosedForm : Prop :=
  ∀ (s : State) (n : Nat), s.Inv → s.engine.phase = .active → s.payload.length = n →
    (s.engine.compressedLen.toNat + s.engine.curBlockLen.toNat + n) * 8 < 2 ^ (8 * s.engine.alg.lengthCounterWidth) →
    let e := s.engine
    let B := e.alg.blockLength
    let w := (List.range e.curBlockLen.toNat).map e.block.read ++ s.payload
    let k := w.length / B
    ∃ t, exec (.update n) s = .next t ∧
      t.engine.state = chain s.units e.alg e.state w k ∧
      t.engine.curBlockLen.toNat = w.length % B ∧
      t.engine.compressedLen.toNat = e.compressedLen.toNat + k * B ∧
      (∀ i < w.length % B, t.engine.block.read i = w.getD (k * B + i) 0) ∧
      (∀ i, w.length % B ≤ i → i < B →
        t.engine.block.read i = if k = 0 then e.block.read i else w.getD ((k - 1) * B + i) 0) ∧
      (∀ i, B ≤ i → t.engine.block.read i = e.block.read i) ∧
      t.engine.phase = .active ∧ t.engine.alg = e.alg ∧
      t.response = some ⟨0x00000010, []⟩ ∧ t.payload = [] ∧ t.units = s.units ∧ t.inbox = s.inbox

/-- UPDATE compresses eagerly, and only full blocks (R158): what is left is less than a block, and everything before it is
compressed; below a full block nothing is compressed; a message that ends with a full block is compressed whole. -/
def Obligations.UpdateCompressesExactlyFullBlocks : Prop :=
  ∀ (s t : State) (n : Nat), s.Inv → s.engine.phase = .active → exec (.update n) s = .next t → t.answeredOk = true →
    (t.engine.curBlockLen.toNat < s.engine.alg.blockLength ∧
      s.engine.alg.blockLength ∣ t.engine.compressedLen.toNat ∧
      t.engine.compressedLen.toNat + t.engine.curBlockLen.toNat =
        s.engine.compressedLen.toNat + s.engine.curBlockLen.toNat + n) ∧
    (s.engine.curBlockLen.toNat + n < s.engine.alg.blockLength →
      t.engine.state = s.engine.state ∧ t.engine.compressedLen = s.engine.compressedLen ∧
        t.engine.curBlockLen.toNat = s.engine.curBlockLen.toNat + n) ∧
    (s.engine.alg.blockLength ∣ s.engine.curBlockLen.toNat + n →
      t.engine.curBlockLen = 0 ∧
        t.engine.compressedLen.toNat = s.engine.compressedLen.toNat + s.engine.curBlockLen.toNat + n)

/-- An empty UPDATE (R159): it raises the phase errors like any other, never `E_LEN_OVERFLOW`, and in the ACTIVE phase
changes no register. -/
def Obligations.EmptyUpdateChangesNothing : Prop :=
  ∀ s : State, s.Inv → s.payload = [] →
    let word : PortWord :=
      match s.engine.phase with
      | .unbound => 0x00000004
      | .active => 0x00000010
      | .terminal => 0x00000021
    exec (.update 0) s = .next { s with response := some ⟨word, []⟩ }

/-- The length bound (R217): in the ACTIVE phase an UPDATE or ONESHOT whose `LEN` reaches it is rejected with
`E_LEN_OVERFLOW`, and the session is as it was. -/
def Obligations.LengthOverflowIsRejected : Prop :=
  ∀ (s : State) (n : Nat), s.engine.phase = .active → s.payload.length = n →
    2 ^ (8 * s.engine.alg.lengthCounterWidth) ≤
      (s.engine.compressedLen.toNat + s.engine.curBlockLen.toNat + n) * 8 →
    exec (.update n) s = .next { s with payload := [], response := some ⟨0x00000016, []⟩ } ∧
    exec (.oneshot n) s = .next { s with payload := [], response := some ⟨0x00000016, []⟩ }

/-- Incremental equivalence (R162): UPDATE of `p` and then of `q` leaves exactly the registers, stale bytes included, that
one UPDATE of `p ++ q` leaves. -/
def Obligations.UpdatesCompose : Prop :=
  ∀ (s : State) (p q : List Byte), s.Inv → s.engine.phase = .active →
    (s.engine.compressedLen.toNat + s.engine.curBlockLen.toNat + (p ++ q).length) * 8 <
      2 ^ (8 * s.engine.alg.lengthCounterWidth) →
    ∃ t₁ t₂ t, exec (.update p.length) { s with payload := p } = .next t₁ ∧
      exec (.update q.length) { t₁ with payload := q } = .next t₂ ∧
      exec (.update (p ++ q).length) { s with payload := p ++ q } = .next t ∧
      t₁.answeredOk = true ∧ t₂.answeredOk = true ∧ t.answeredOk = true ∧ t₂.engine = t.engine

/-! ## FINISH -/

/-- The closed form of FINISH (R170, R178, R179): one or two blocks are compressed, the registers are those of the rule,
the block holds the last block compressed, what is appended to the message is `padding`, which makes its length a multiple
of `B`, and the response carries the whole serialised state. -/
def Obligations.FinishClosedForm : Prop :=
  ∀ s : State, s.Inv → s.engine.phase = .active → s.payload = [] →
    let e := s.engine
    let B := e.alg.blockLength
    let L := e.alg.lengthCounterWidth
    let r := e.curBlockLen.toNat
    let M := (List.range r).map e.block.read
    let LF := enc (8 * (e.compressedLen.toNat + r)) L e.alg.outputEndianness
    let T := s.units.apply e.alg.family
    ∃ t, exec .finish s = .next t ∧
      (r ≤ B - L - 1 →
        t.engine.state = T e.state (M ++ [0x80] ++ zeroBytes (B - L - 1 - r) ++ LF) ∧
        t.engine.curBlockLen.toNat = r + 1 ∧
        t.engine.block.readBytes 0 B = M ++ [0x80] ++ zeroBytes (B - L - 1 - r) ++ LF ∧
        [0x80] ++ zeroBytes (B - L - 1 - r) ++ LF = padding e.alg (e.compressedLen.toNat + r)) ∧
      (B - L ≤ r →
        t.engine.state = T (T e.state (M ++ [0x80] ++ zeroBytes (B - 1 - r))) (zeroBytes (B - L) ++ LF) ∧
        t.engine.curBlockLen.toNat = 0 ∧
        t.engine.block.readBytes 0 B = zeroBytes (B - L) ++ LF ∧
        [0x80] ++ zeroBytes (B - 1 - r) ++ (zeroBytes (B - L) ++ LF) = padding e.alg (e.compressedLen.toNat + r)) ∧
      (e.compressedLen.toNat + r + (padding e.alg (e.compressedLen.toNat + r)).length) % B = 0 ∧
      (∀ i, B ≤ i → t.engine.block.read i = e.block.read i) ∧
      t.engine.compressedLen.toNat = e.compressedLen.toNat + r ∧
      t.engine.phase = .terminal ∧ t.engine.alg = e.alg ∧
      t.response =
        some ⟨BitVec.ofNat 32 (0x20 + 256 * (e.alg.stateWidth * e.alg.wordSize)), serialise e.alg t.engine.state⟩ ∧
      t.payload = [] ∧ t.units = s.units ∧ t.inbox = s.inbox

/-- A message that ends with a full block (R182): FINISH compresses one further block that is padding only, and does not
take step 2. -/
def Obligations.FinishAfterFullBlockAddsOnePaddingBlock : Prop :=
  ∀ (s t : State), s.Inv → s.engine.phase = .active → s.engine.curBlockLen = 0 → exec .finish s = .next t →
    t.engine.state =
        s.units.apply s.engine.alg.family s.engine.state
          ([0x80] ++ zeroBytes (s.engine.alg.blockLength - s.engine.alg.lengthCounterWidth - 1) ++
            enc (8 * s.engine.compressedLen.toNat) s.engine.alg.lengthCounterWidth s.engine.alg.outputEndianness) ∧
      t.engine.curBlockLen = 1 ∧ t.engine.compressedLen = s.engine.compressedLen

/-- FINISH with no UPDATE before it (R183): the digest is that of one block, `80` and zeros, chained from the initial
state. -/
def Obligations.FinishOfEmptyMessage : Prop :=
  ∀ (s : State) (a : Alg) (rest : List HostAction), s.units.present a.family = true →
    s.inbox = .command (initCommand a) :: .command finishCommand :: rest →
    ∃ t, Sys2Proof.core.run 2 s = .next t ∧ t.engine.phase = .terminal ∧ t.inbox = rest ∧
      t.digest = serialise a (s.units.apply a.family a.initialState (0x80 :: zeroBytes (a.blockLength - 1)))

/-- The length field (R176, R62): after FINISH byte `j` of the last `L` bytes of `block` is the bit length's byte in the
row's order, most significant first but for `LEGACY128`. -/
def Obligations.LengthFieldIsInOutputOrder : Prop :=
  ∀ (s t : State), s.Inv → s.engine.phase = .active → exec .finish s = .next t →
    let B := s.engine.alg.blockLength
    let L := s.engine.alg.lengthCounterWidth
    let bitlen := 8 * (s.engine.compressedLen.toNat + s.engine.curBlockLen.toNat)
    ∀ j < L,
      (t.engine.block.read (B - L + j)).toNat =
        if s.engine.alg = .legacy128 then bitlen / 256 ^ j % 256 else bitlen / 256 ^ (L - 1 - j) % 256

/-- The bit length fits its field (R175): what the last `L` bytes say is the message's bit length itself, with no reduction,
and the message's byte count is `compressed_len`. -/
def Obligations.BitLengthIsExact : Prop :=
  ∀ (s t : State), s.Inv → s.engine.phase = .active → exec .finish s = .next t →
    dec (t.engine.block.readBytes (s.engine.alg.blockLength - s.engine.alg.lengthCounterWidth)
        s.engine.alg.lengthCounterWidth) s.engine.alg.outputEndianness = t.engine.compressedLen.toNat * 8 ∧
      t.engine.compressedLen.toNat = s.engine.compressedLen.toNat + s.engine.curBlockLen.toNat

/-! ## ONESHOT and whole sessions -/

/-- ONESHOT is UPDATE and then FINISH (R206): it leaves the same registers and gives the response of that FINISH. -/
def Obligations.OneshotIsUpdateThenFinish : Prop :=
  ∀ (s u t : State) (n : Nat), exec (.update n) s = .next u → u.answeredOk = true → exec .finish u = .next t →
    ∃ t', exec (.oneshot n) s = .next t' ∧ t'.engine = t.engine ∧ t'.response = t.response ∧ t'.units = t.units ∧
      t'.inbox = t.inbox ∧ t'.payload = []

/-- The closed form of ONESHOT (R161, R178, R205): with `w = block[0 .. c) ++ P` and `N = m + len(w)`, an admitted ONESHOT
chains all blocks of `w` followed by the padding of an `N`-byte message, and returns the whole serialised state. -/
def Obligations.OneshotClosedForm : Prop :=
  ∀ (s : State) (n : Nat), s.Inv → s.engine.phase = .active → s.payload.length = n →
    (s.engine.compressedLen.toNat + s.engine.curBlockLen.toNat + n) * 8 < 2 ^ (8 * s.engine.alg.lengthCounterWidth) →
    let e := s.engine
    let w := (List.range e.curBlockLen.toNat).map e.block.read ++ s.payload
    let padded := w ++ padding e.alg (e.compressedLen.toNat + w.length)
    ∃ t, exec (.oneshot n) s = .next t ∧
      padded.length % e.alg.blockLength = 0 ∧
      t.engine.state = chain s.units e.alg e.state padded (padded.length / e.alg.blockLength) ∧
      t.engine.compressedLen.toNat = e.compressedLen.toNat + w.length ∧
      t.engine.phase = .terminal ∧ t.engine.alg = e.alg ∧
      (∀ i, e.alg.blockLength ≤ i → t.engine.block.read i = e.block.read i) ∧
      t.response =
        some ⟨BitVec.ofNat 32 (0x20 + 256 * (e.alg.stateWidth * e.alg.wordSize)), serialise e.alg t.engine.state⟩ ∧
      t.payload = [] ∧ t.units = s.units ∧ t.inbox = s.inbox

/-- ONESHOT is all or nothing (R207): when its UPDATE would be rejected, it changes no register and gives that rejection;
when its UPDATE would be accepted, it does both parts, and leaves the registers, the response and the host that a FINISH
after that UPDATE leaves. -/
def Obligations.OneshotIsAllOrNothing : Prop :=
  ∀ (s u : State) (n : Nat), exec (.update n) s = .next u →
    (u.answeredOk = false → exec (.oneshot n) s = .next u ∧ u.engine = s.engine ∧ u.digest = []) ∧
    (u.answeredOk = true →
      ∃ t v, exec (.oneshot n) s = .next t ∧ exec .finish u = .next v ∧ t.engine = v.engine ∧ t.response = v.response ∧
        t.units = v.units ∧ t.inbox = v.inbox ∧ t.payload = v.payload ∧ t.answeredOk = true ∧
        t.engine.phase = .terminal)

/-- An empty ONESHOT is FINISH (R208). -/
def Obligations.EmptyOneshotIsFinish : Prop :=
  ∀ s : State, s.Inv → s.payload = [] → exec (.oneshot 0) s = exec .finish s

/-- Any split of a message over UPDATEs, then FINISH, gives the registers and the response of one ONESHOT of the whole
message (R206, R208), and both succeed. -/
def Obligations.AnySplitGivesTheOneshotDigest : Prop :=
  ∀ (s : State) (chunks : List (List Byte)) (rest : List HostAction), s.Inv → s.engine.phase = .active →
    chunks.flatten.length < 2 ^ 24 →
    (s.engine.compressedLen.toNat + s.engine.curBlockLen.toNat + chunks.flatten.length) * 8 <
      2 ^ (8 * s.engine.alg.lengthCounterWidth) →
    s.inbox = chunks.map (fun p => .command (updateCommand p)) ++ .command finishCommand :: rest →
    ∃ t t', Sys2Proof.core.run (chunks.length + 1) s = .next t ∧
      step { s with inbox := .command (oneshotCommand chunks.flatten) :: rest } = .next t' ∧
      t.engine = t'.engine ∧ t.response = t'.response ∧ t.inbox = t'.inbox ∧ t.answeredOk = true

/-- The engine computes the Merkle–Damgård digest (R144, R161, R178, R195, R197): after INIT of an algorithm whose unit is
wired, ONESHOT of a message returns its padded blocks chained from the initial state, serialised whole. -/
def Obligations.SessionDigestIsMerkleDamgard : Prop :=
  ∀ (s : State) (a : Alg) (message : List Byte) (rest : List HostAction), s.units.present a.family = true →
    message.length < 2 ^ 24 →
    s.inbox = .command (initCommand a) :: .command (oneshotCommand message) :: rest →
    ∃ t, Sys2Proof.core.run 2 s = .next t ∧ t.engine.phase = .terminal ∧ t.inbox = rest ∧ t.answeredOk = true ∧
      t.digest = messageDigest s.units a message

/-! ## Errors and responses -/

/-- After `finish` (R211): UPDATE, FINISH and ONESHOT in the TERMINAL phase raise `E_MISUSE` and change no register. -/
def Obligations.MisuseAfterFinish : Prop :=
  ∀ (s : State) (i : Instr), s.engine.phase = .terminal → s.payload.length = i.payloadLength →
    (i = .finish ∨ ∃ n, i = .update n ∨ i = .oneshot n) →
    exec i s = .next { s with payload := [], response := some ⟨0x00000021, []⟩ }

/-- Before INIT (R214): UPDATE, FINISH and ONESHOT in the UNBOUND phase raise `E_NOT_INIT`, whatever the other registers
hold. -/
def Obligations.NotInitBeforeInit : Prop :=
  ∀ (s : State) (i : Instr), s.engine.phase = .unbound → s.payload.length = i.payloadLength →
    (i = .finish ∨ ∃ n, i = .update n ∨ i = .oneshot n) →
    exec i s = .next { s with payload := [], response := some ⟨0x00000004, []⟩ }

/-- Illegal words (R215): `E_BAD_CMD`, from the header alone, in every state. -/
def Obligations.IllegalWordIsRejected : Prop :=
  ∀ (s : State) (h : PortWord) (rest : List HostAction), decode h = .illegal → s.inbox = .command ⟨h, []⟩ :: rest →
    step s = .next { s with
      inbox := rest, payload := [], response := some ⟨BitVec.ofNat 32 (5 + 16 * s.engine.phase.code), []⟩ }

/-- Unsupported algorithms (R212): an INIT word with `ALG` 8 to 15 and `LEN = 0` is rejected with `E_BAD_ALG`; an existing
session is not disturbed. -/
def Obligations.UnsupportedAlgorithmIsRejected : Prop :=
  ∀ (s : State) (alg : Nat) (rest : List HostAction), 8 ≤ alg → alg < 16 →
    s.inbox = .command ⟨headerOf 1 alg 0, []⟩ :: rest →
    step s = .next { s with
      inbox := rest, payload := [], response := some ⟨BitVec.ofNat 32 (2 + 16 * s.engine.phase.code), []⟩ }

/-- Missing transforms (R213): an INIT with `ALG` 0 to 7 whose family's unit is not wired is rejected with
`E_NO_TRANSFORM`; with the default of R9, in which all families are wired, no INIT is. -/
def Obligations.MissingTransformIsRejected : Prop :=
  (∀ (s : State) (a : Alg) (rest : List HostAction), s.units.present a.family = false →
    s.inbox = .command (initCommand a) :: rest →
    step s = .next { s with
      inbox := rest, payload := [], response := some ⟨BitVec.ofNat 32 (3 + 16 * s.engine.phase.code), []⟩ }) ∧
  (∀ (s : State) (a : Alg) (rest : List HostAction), s.units = Units.default →
    s.inbox = .command (initCommand a) :: rest → ∃ t, step s = .next t ∧ t.answeredOk = true)

/-- Priority of errors (R218): a malformed header gives `E_BAD_CMD` before any other error, whatever the rest of the header
and the state would give; an unsupported algorithm gives `E_BAD_ALG` whatever units are wired; the phase test comes before
the length bound. -/
def Obligations.ErrorPriority : Prop :=
  (∀ (s : State) (h : PortWord) (rest : List HostAction), decode h = .illegal → s.inbox = .command ⟨h, []⟩ :: rest →
    ∃ t, step s = .next t ∧ t.response = some ⟨BitVec.ofNat 32 (5 + 16 * s.engine.phase.code), []⟩) ∧
  (∀ (s : State) (alg : Nat) (rest : List HostAction), 8 ≤ alg → alg < 16 →
    s.inbox = .command ⟨headerOf 1 alg 0, []⟩ :: rest →
    ∃ t, step s = .next t ∧ t.response = some ⟨BitVec.ofNat 32 (2 + 16 * s.engine.phase.code), []⟩) ∧
  decode 0x18000001 = .illegal ∧ decode 0x21000000 = .illegal ∧
  (∀ (s : State) (n : Nat), s.payload.length = n → s.engine.phase ≠ .active →
    2 ^ (8 * s.engine.alg.lengthCounterWidth) ≤
      (s.engine.compressedLen.toNat + s.engine.curBlockLen.toNat + n) * 8 →
    ∃ t t', exec (.update n) s = .next t ∧ exec (.oneshot n) s = .next t' ∧ t.response = t'.response ∧
      t.response = some ⟨if s.engine.phase = .unbound then 0x00000004 else 0x00000021, []⟩)

/-- A rejection is precise (R216): a command that is answered with an error changes no register, and its response is the
error number and the unchanged phase, with no digest. -/
def Obligations.RejectionIsPrecise : Prop :=
  ∀ (s t : State) (c : Command) (rest : List HostAction), s.inbox = .command c :: rest → step s = .next t →
    t.answeredOk = false →
    t.engine = s.engine ∧ t.units = s.units ∧ t.inbox = rest ∧ t.payload = [] ∧
      ∃ err : ErrorCode, t.response = some ⟨BitVec.ofNat 32 (err.code + 16 * s.engine.phase.code), []⟩

/-- The lifecycle table (R186), at every decoded header and phase. -/
def Obligations.LifecycleTable : Prop :=
  ∀ (s t : State) (c : Command) (rest : List HostAction), s.inbox = .command c :: rest → step s = .next t →
    ∃ r, t.response = some r ∧
      (r.word.toNat % 16, t.engine.phase) =
        lifecycle (decode c.header) s.engine.phase
          (((familyAsked (decode c.header)).map s.units.present).getD false)
          (decide (2 ^ (8 * s.engine.alg.lengthCounterWidth) ≤
            (s.engine.compressedLen.toNat + s.engine.curBlockLen.toNat + c.payload.length) * 8))

/-- The fields of every response (R100; the digest is that of R101): `R = ERR + PHASE * 16 + DLEN * 256` with the phase after the command and the
number of digest bytes; a digest comes with a successful FINISH or ONESHOT only, and is then the whole state, serialised. -/
def Obligations.ResponseFields : Prop :=
  ∀ (s t : State) (c : Command) (rest : List HostAction), s.inbox = .command c :: rest → step s = .next t →
    ∃ (r : Response) (err : Nat), t.response = some r ∧ err ≤ 6 ∧
      r.word.toNat = err + t.engine.phase.code * 16 + r.digest.length * 256 ∧
      r.digest.length =
        (if err = 0 ∧ t.engine.phase = .terminal then t.engine.alg.stateWidth * t.engine.alg.wordSize else 0) ∧
      r.digest = (if err = 0 ∧ t.engine.phase = .terminal then serialise t.engine.alg t.engine.state else []) ∧
      (err = 0 ∧ t.engine.phase = .terminal ↔
        s.engine.phase = .active ∧ err = 0 ∧ (decode c.header = .command .finish ∨ ∃ n, decode c.header = .command (.oneshot n)))

/-- Every response word the engine can produce (R103). -/
def Obligations.ResponseWordsAreListed : Prop :=
  ∀ (s t : State) (c : Command) (rest : List HostAction), s.inbox = .command c :: rest → step s = .next t →
    ∃ r, t.response = some r ∧
      r.word ∈ ([0x00000010, 0x00001020, 0x00001420, 0x00002020, 0x00004020, 0x00000021, 0x00000002, 0x00000012,
        0x00000022, 0x00000003, 0x00000013, 0x00000023, 0x00000004, 0x00000005, 0x00000015, 0x00000025,
        0x00000016] : List PortWord)

/-! ## Reset, the step and the invariant -/

/-- Reset (R240): it leaves `phase` UNBOUND, in which every command but a valid INIT is rejected, and the engine idle
(R227); that an idle machine steps, and stays as it is, is the model's own choice (notes/assumptions/2.md). A hardware reset
between commands discards the session without a digest (R241); that it keeps the transform units and the host's further
actions is the model's choice (notes/assumptions/5.md). -/
def Obligations.ResetIsUnbound : Prop :=
  State.reset.engine.phase = .unbound ∧ step State.reset = .next State.reset ∧
  (∀ (s : State) (rest : List HostAction), s.inbox = .hardReset :: rest →
    ∃ t, step s = .next t ∧ t.engine.phase = .unbound ∧ t.units = s.units ∧ t.inbox = rest ∧ t.digest = []) ∧
  (∀ (s t : State) (c : Command) (rest : List HostAction), s.engine.phase = .unbound → s.inbox = .command c :: rest →
    step s = .next t → t.answeredOk = true → ∃ a, decode c.header = .command (Instr.init a))

/-- The invariant holds at reset. The reset values of all registers but `phase` are the model's (notes/assumptions/4.md). -/
def Obligations.ResetMeetsInvariant : Prop := State.reset.Inv

/-- Every step keeps the invariant: the buffers keep the bound row's sizes and the canonical form, the write pointer stays
inside the block, the counters stay within the length field, and a session's transform unit is wired (R26, R27, R33). A hardware
reset between commands is a step too, and there the statement rests on the values of notes/assumptions/5.md. -/
def Obligations.StepKeepsInvariant : Prop :=
  ∀ s t : State, s.Inv → step s = .next t → t.Inv

/-- A step runs the decoded command (R75, R79, R98): the command is taken from the host, its payload captured, and the state
is that of its meaning. -/
def Obligations.StepRunsTheDecodedCommand : Prop :=
  ∀ (s : State) (c : Command) (rest : List HostAction) (i : Instr), s.inbox = .command c :: rest →
    decode c.header = .command i → step s = exec i { s with inbox := rest, payload := c.payload }

/-- With nothing to do the engine holds its state (R227); that the model steps then is its own choice
(notes/assumptions/2.md). -/
def Obligations.IdleStepHoldsTheState : Prop :=
  ∀ s : State, s.inbox = [] → step s = .next s

/-- Several hosts at once are given no meaning (R246). -/
def Obligations.OverlappingCommandsAreRefused : Prop :=
  ∀ (s : State) (cs : List Command) (rest : List HostAction), s.inbox = .overlapping cs :: rest →
    step s = .refused .overlappingCommands

/-- A mis-framed transaction is given no meaning (R247): `LEN` payload bytes with an UPDATE or ONESHOT, none with any other
header. -/
def Obligations.MisframedTransactionsAreRefused : Prop :=
  ∀ (s : State) (h : PortWord) (p : List Byte) (rest : List HostAction), s.inbox = .command ⟨h, p⟩ :: rest →
    p.length ≠ (if h.toNat / 2 ^ 24 = 0x20 ∨ h.toNat / 2 ^ 24 = 0x40 then h.toNat % 2 ^ 24 else 0) →
    step s = .refused .misframed

/-- The step's parameters never change (R142): which transform units are wired is a constant. -/
def Obligations.StepKeepsTransformUnits : Prop :=
  ∀ s t : State, step s = .next t → t.units = s.units

/-- The transitions of `phase` (R22): to ACTIVE by a successful INIT, from ACTIVE to TERMINAL by a successful FINISH or
ONESHOT, to UNBOUND by hardware reset only; nothing else changes it. -/
def Obligations.PhaseTransitions : Prop :=
  ∀ s t : State, step s = .next t → t.engine.phase ≠ s.engine.phase →
    (∃ rest, s.inbox = .hardReset :: rest ∧ t.engine.phase = .unbound) ∨
    (∃ c rest a, s.inbox = .command c :: rest ∧ decode c.header = .command (Instr.init a) ∧
      t.answeredOk = true ∧ t.engine.phase = .active) ∨
    (∃ c rest i, s.inbox = .command c :: rest ∧ decode c.header = .command i ∧ (i = .finish ∨ ∃ n, i = .oneshot n) ∧
      t.answeredOk = true ∧ s.engine.phase = .active ∧ t.engine.phase = .terminal)

/-- `alg` never changes during a session (R21): only an accepted INIT, which binds the algorithm it names, or a hardware
reset writes it. -/
def Obligations.AlgIsWrittenOnlyByInit : Prop :=
  ∀ s t : State, step s = .next t → t.engine.alg ≠ s.engine.alg →
    (∃ rest, s.inbox = .hardReset :: rest) ∨
    (∃ c rest, s.inbox = .command c :: rest ∧ decode c.header = .command (Instr.init t.engine.alg) ∧
      t.answeredOk = true)

/-- No response depends on what no command reads (R17, R28, R35, R36): machines that differ at most in stale bytes of the
block, or in the registers outside a session, answer every host action alike and stay so. -/
def Obligations.UnreadStateNeverShows : Prop :=
  ∀ s s' t : State, s.Inv → s'.Inv → s.Alike s' → step s = .next t → ∃ t', step s' = .next t' ∧ t.Alike t'
end

