-- ==== Sys2Proof/Laws/Decode.lean ====
section
/-! SUPPORT. The fields of a header word, and the decoder on words given by their fields. -/

namespace Sys2Proof

theorem opcOf_lt (h : PortWord) : opcOf h < 2 ^ 4 := Nat.mod_lt _ (by decide)

theorem algOf_lt (h : PortWord) : algOf h < 2 ^ 4 := Nat.mod_lt _ (by decide)

theorem lenOf_lt (h : PortWord) : lenOf h < 2 ^ 24 := Nat.mod_lt _ (by decide)

/-- A header word is its three fields (R91). -/
theorem toNat_eq_fields (h : PortWord) : h.toNat = opcOf h * 2 ^ 28 + algOf h * 2 ^ 24 + lenOf h := by
  have := h.isLt
  simp only [opcOf, algOf, lenOf, bits]
  omega

theorem toNat_headerOf {opc alg len : Nat} (ho : opc < 2 ^ 4) (ha : alg < 2 ^ 4) (hl : len < 2 ^ 24) :
    (headerOf opc alg len).toNat = opc * 2 ^ 28 + alg * 2 ^ 24 + len := by
  rw [headerOf, BitVec.toNat_ofNat]
  omega

theorem fields_unique {h : PortWord} {opc alg len : Nat} (ha : alg < 2 ^ 4) (hl : len < 2 ^ 24)
    (hh : h.toNat = opc * 2 ^ 28 + alg * 2 ^ 24 + len) : opcOf h = opc ∧ algOf h = alg ∧ lenOf h = len := by
  have := h.isLt
  simp only [opcOf, algOf, lenOf, bits]
  omega

theorem fields_headerOf {opc alg len : Nat} (ho : opc < 2 ^ 4) (ha : alg < 2 ^ 4) (hl : len < 2 ^ 24) :
    opcOf (headerOf opc alg len) = opc ∧ algOf (headerOf opc alg len) = alg ∧ lenOf (headerOf opc alg len) = len :=
  fields_unique ha hl (toNat_headerOf ho ha hl)

theorem headerOf_fields (h : PortWord) : headerOf (opcOf h) (algOf h) (lenOf h) = h := by
  apply BitVec.eq_of_toNat_eq
  rw [toNat_headerOf (opcOf_lt h) (algOf_lt h) (lenOf_lt h), ← toNat_eq_fields]

theorem decode_of_init {h : PortWord} (ho : opcOf h = 1) (hl : lenOf h = 0) : decode h = decodeInit (algOf h) := by
  simp [decode, ho, hl]

theorem decode_of_update {h : PortWord} (ho : opcOf h = 2) (ha : algOf h = 0) :
    decode h = .command (.update (lenOf h)) := by
  simp [decode, ho, ha]

theorem decode_of_finish {h : PortWord} (ho : opcOf h = 3) (ha : algOf h = 0) (hl : lenOf h = 0) :
    decode h = .command .finish := by
  simp [decode, ho, ha, hl]

theorem decode_of_oneshot {h : PortWord} (ho : opcOf h = 4) (ha : algOf h = 0) :
    decode h = .command (.oneshot (lenOf h)) := by
  simp [decode, ho, ha]

/-- The mask of a row with no free field keeps the whole word (R96). -/
theorem and_wholeMask (h : PortWord) : h &&& 0xFFFFFFFF = h := by
  show h &&& BitVec.allOnes 32 = h
  exact BitVec.and_allOnes

/-- The mask of a row with `LEN` free keeps the top eight bits, in place (R96). -/
theorem toNat_and_lenMask (h : PortWord) : (h &&& 0xFF000000).toNat = h.toNat / 2 ^ 24 * 2 ^ 24 := by
  have hm : (0xFF000000 : PortWord).toNat = (2 ^ 8 - 1) * 2 ^ 24 := by decide
  have hlt := h.isLt
  rw [BitVec.toNat_and, hm]
  apply Nat.eq_of_testBit_eq
  intro i
  rw [Nat.testBit_and, Nat.testBit_mul_two_pow, Nat.testBit_mul_two_pow, Nat.testBit_two_pow_sub_one,
    Nat.testBit_div_two_pow]
  by_cases hi : 24 ≤ i
  · by_cases hi2 : i - 24 < 8
    · simp [hi, hi2]
    · have : h.toNat.testBit i = false :=
        Nat.testBit_lt_two_pow (Nat.lt_of_lt_of_le hlt (Nat.pow_le_pow_right (by decide) (by omega)))
      simp [hi, hi2, this]
  · simp [hi]

/-- A row with `LEN` free is selected by the words with its top eight bits (R96). -/
theorem and_lenMask_eq {h : PortWord} {top : Nat} (ht : top < 256) :
    h &&& 0xFF000000 = BitVec.ofNat 32 (top * 2 ^ 24) ↔ h.toNat / 2 ^ 24 = top := by
  have hlt := h.isLt
  rw [← BitVec.toNat_inj, toNat_and_lenMask, BitVec.toNat_ofNat]
  omega

end Sys2Proof
end

