-- ==== Sys2Proof/Laws/Memory.lean ====
section
/-! SUPPORT. The laws of the block buffer: reading after writing, the canonical form is kept, and equal reads of canonical
buffers make equal buffers. -/

namespace Sys2Proof

/-- An offset below every listed one is unlisted. -/
theorem Memory.read_of_forall_ne {m : Memory} {i : Nat} (h : ∀ c ∈ m, c.1 ≠ i) : m.read i = Memory.unlisted := by
  induction m with
  | nil => rfl
  | cons c m ih =>
    obtain ⟨k, b⟩ := c
    have hk : k ≠ i := h (k, b) (by simp)
    simp only [Memory.read, hk, if_false]
    exact ih fun c hc => h c (by simp [hc])

theorem Memory.wf_nil : Memory.wf [] := by simp [Memory.wf]

theorem Memory.wf_tail {c : Host.Cell} {m : Memory} (h : Memory.wf (c :: m)) : m.wf :=
  ⟨(List.pairwise_cons.1 h.1).2, fun d hd => h.2 d (by simp [hd])⟩

theorem Memory.wf_head_lt {c : Host.Cell} {m : Memory} (h : Memory.wf (c :: m)) : ∀ d ∈ m, c.1 < d.1 :=
  (List.pairwise_cons.1 h.1).1

theorem Memory.wf_cons {c : Host.Cell} {m : Memory} (hv : c.2 ≠ Memory.unlisted) (hlt : ∀ d ∈ m, c.1 < d.1)
    (h : m.wf) : Memory.wf (c :: m) :=
  ⟨List.pairwise_cons.2 ⟨hlt, h.1⟩, by simpa [hv] using h.2⟩

/-- Every cell after a write is an old one or the written one. -/
theorem Memory.mem_write {m : Memory} {i : Nat} {v : Byte} {c : Host.Cell} (h : c ∈ m.write i v) :
    c ∈ m ∨ c = (i, v) := by
  induction m with
  | nil =>
    simp only [Memory.write] at h
    split at h <;> simp_all
  | cons d m ih =>
    obtain ⟨k, b⟩ := d
    simp only [Memory.write] at h
    split at h
    · split at h
      · exact .inl h
      · rcases List.mem_cons.1 h with h | h
        · exact .inr h
        · exact .inl h
    · split at h
      · split at h
        · exact .inl (List.mem_cons_of_mem _ h)
        · rcases List.mem_cons.1 h with h | h
          · exact .inr h
          · exact .inl (List.mem_cons_of_mem _ h)
      · rcases List.mem_cons.1 h with h | h
        · exact .inl (by simp [h])
        · exact (ih h).imp (List.mem_cons_of_mem _) id

/-- A write keeps the canonical form. -/
theorem Memory.wf_write {m : Memory} (h : m.wf) (i : Nat) (v : Byte) : (m.write i v).wf := by
  induction m with
  | nil =>
    simp only [Memory.write]
    split
    · exact Memory.wf_nil
    · exact Memory.wf_cons ‹_› (by simp) Memory.wf_nil
  | cons d m ih =>
    obtain ⟨k, b⟩ := d
    have hlt : ∀ d ∈ m, k < d.1 := Memory.wf_head_lt h
    have hm := Memory.wf_tail h
    have hb : b ≠ Memory.unlisted := h.2 (k, b) (by simp)
    simp only [Memory.write]
    split
    · rename_i hik
      split
      · exact h
      · refine Memory.wf_cons ‹_› ?_ h
        intro d hd
        rcases List.mem_cons.1 hd with rfl | hd
        · exact hik
        · exact Nat.lt_trans hik (hlt d hd)
    · split
      · rename_i hik
        split
        · exact hm
        · exact Memory.wf_cons ‹_› (fun d hd => by simpa [hik] using hlt d hd) hm
      · refine Memory.wf_cons hb ?_ (ih hm)
        intro d hd
        rcases Memory.mem_write hd with hd | rfl
        · exact hlt d hd
        · show k < i
          omega

/-- Reading after a write: the written byte at its offset, every other byte as before. -/
theorem Memory.read_write {m : Memory} (h : m.wf) (i j : Nat) (v : Byte) :
    (m.write i v).read j = if i = j then v else m.read j := by
  induction m with
  | nil =>
    simp only [Memory.write]
    by_cases hv : v = Memory.unlisted <;> by_cases hij : i = j <;> simp [hv, hij, Memory.read]
  | cons d m ih =>
    obtain ⟨k, b⟩ := d
    have hlt : ∀ d ∈ m, k < d.1 := Memory.wf_head_lt h
    have hm := Memory.wf_tail h
    simp only [Memory.write]
    split
    · rename_i hik
      have hread : Memory.read ((k, b) :: m) i = Memory.unlisted := by
        refine Memory.read_of_forall_ne fun c hc => ?_
        rcases List.mem_cons.1 hc with rfl | hc
        · exact Nat.ne_of_gt hik
        · exact Nat.ne_of_gt (Nat.lt_trans hik (hlt c hc))
      by_cases hv : v = Memory.unlisted
      · by_cases hij : i = j
        · subst hij
          simpa [hv] using hread
        · simp [hv, hij]
      · simp [hv, Memory.read]
    · split
      · rename_i hik
        subst hik
        have hread : Memory.read m i = Memory.unlisted :=
          Memory.read_of_forall_ne fun c hc => Nat.ne_of_gt (hlt c hc)
        by_cases hv : v = Memory.unlisted <;> by_cases hij : i = j <;> simp_all [Memory.read]
      · rename_i hik
        by_cases hkj : k = j
        · have : i ≠ j := by omega
          simp [Memory.read, hkj, this]
        · simp [Memory.read, hkj, ih hm]

@[simp] theorem Memory.writeBytes_nil (m : Memory) (a : Nat) : m.writeBytes a [] = m := rfl

theorem Memory.writeBytes_cons (m : Memory) (a : Nat) (b : Byte) (bs : List Byte) :
    m.writeBytes a (b :: bs) = (m.write a b).writeBytes (a + 1) bs := rfl

theorem Memory.writeBytes_append (m : Memory) (a : Nat) (bs cs : List Byte) :
    m.writeBytes a (bs ++ cs) = (m.writeBytes a bs).writeBytes (a + bs.length) cs := by
  induction bs generalizing m a with
  | nil => simp
  | cons b bs ih => simp [Memory.writeBytes_cons, ih, Nat.add_assoc, Nat.add_comm]

/-- A run of writes keeps the canonical form. -/
theorem Memory.wf_writeBytes {m : Memory} (h : m.wf) (a : Nat) (bs : List Byte) : (m.writeBytes a bs).wf := by
  induction bs generalizing m a with
  | nil => exact h
  | cons b bs ih => exact ih (Memory.wf_write h a b) (a + 1)

/-- Reading after a run of writes: the written bytes in their order, every other byte as before. -/
theorem Memory.read_writeBytes {m : Memory} (h : m.wf) (a j : Nat) (bs : List Byte) :
    (m.writeBytes a bs).read j = if a ≤ j ∧ j < a + bs.length then bs.getD (j - a) 0 else m.read j := by
  induction bs generalizing m a with
  | nil =>
    have : ¬(a ≤ j ∧ j < a + 0) := by omega
    simp only [List.length_nil, this, if_false]
    rfl
  | cons b bs ih =>
    rw [Memory.writeBytes_cons, ih (Memory.wf_write h a b), Memory.read_write h]
    rcases Nat.lt_trichotomy j a with hj | rfl | hj
    · have h1 : ¬(a + 1 ≤ j ∧ j < a + 1 + bs.length) := by omega
      have h2 : ¬(a ≤ j ∧ j < a + (b :: bs).length) := by omega
      have h3 : a ≠ j := by omega
      rw [if_neg h1, if_neg h2, if_neg h3]
    · have h1 : ¬(j + 1 ≤ j ∧ j < j + 1 + bs.length) := by omega
      simp
    · obtain ⟨d, rfl⟩ : ∃ d, j = a + 1 + d := ⟨j - (a + 1), by omega⟩
      have h3 : a ≠ a + 1 + d := by omega
      have h4 : a + 1 + d - a = d + 1 := by omega
      have h5 : a + 1 + d - (a + 1) = d := by omega
      by_cases hd : d < bs.length
      · have h1 : a + 1 ≤ a + 1 + d ∧ a + 1 + d < a + 1 + bs.length := by omega
        have h2 : a ≤ a + 1 + d ∧ a + 1 + d < a + (b :: bs).length := by simp; omega
        simp only [h1, h2, if_true, h4, h5, and_self, List.getD_cons_succ]
      · have h1 : ¬(a + 1 ≤ a + 1 + d ∧ a + 1 + d < a + 1 + bs.length) := by omega
        have h2 : ¬(a ≤ a + 1 + d ∧ a + 1 + d < a + (b :: bs).length) := by simp; omega
        simp only [h1, h2, if_false, h3]

/-- Every listed offset after a run of writes was listed or lies in the run. -/
theorem Memory.lt_of_mem_writeBytes {m : Memory} {n : Nat} (h : ∀ c ∈ m, c.1 < n) (a : Nat) (bs : List Byte)
    (hn : a + bs.length ≤ n) : ∀ c ∈ m.writeBytes a bs, c.1 < n := by
  induction bs generalizing m a with
  | nil => exact h
  | cons b bs ih =>
    simp only [List.length_cons] at hn
    refine ih (fun c hc => ?_) (a + 1) (by omega)
    rcases Memory.mem_write hc with hc | rfl
    · exact h c hc
    · show a < n
      omega

@[simp] theorem Memory.length_readBytes (m : Memory) (a n : Nat) : (m.readBytes a n).length = n := by
  simp [Memory.readBytes]

theorem Memory.getD_readBytes (m : Memory) (a n i : Nat) (h : i < n) : (m.readBytes a n).getD i 0 = m.read (a + i) := by
  simp [Memory.readBytes, List.getD_eq_getElem?_getD, h]

/-- Canonical buffers that read alike everywhere are equal. -/
theorem Memory.ext_read {m n : Memory} (hm : m.wf) (hn : n.wf) (h : ∀ i, m.read i = n.read i) : m = n := by
  induction m generalizing n with
  | nil =>
    cases n with
    | nil => rfl
    | cons d n =>
      have := h d.1
      exact absurd this.symm (by simpa [Memory.read] using hn.2 d (by simp))
  | cons c m ih =>
    cases n with
    | nil =>
      have := h c.1
      exact absurd this (by simpa [Memory.read] using hm.2 c (by simp))
    | cons d n =>
      obtain ⟨k, b⟩ := c
      obtain ⟨l, b'⟩ := d
      have hmlt : ∀ c ∈ m, k < c.1 := Memory.wf_head_lt hm
      have hnlt : ∀ c ∈ n, l < c.1 := Memory.wf_head_lt hn
      have hb : b ≠ Memory.unlisted := hm.2 (k, b) (by simp)
      have hb' : b' ≠ Memory.unlisted := hn.2 (l, b') (by simp)
      have hkl : k = l := by
        rcases Nat.lt_trichotomy k l with hlt | heq | hlt
        · have h1 : Memory.read ((l, b') :: n) k = Memory.unlisted := by
            refine Memory.read_of_forall_ne fun c hc => ?_
            rcases List.mem_cons.1 hc with rfl | hc
            · exact Nat.ne_of_gt hlt
            · exact Nat.ne_of_gt (Nat.lt_trans hlt (hnlt c hc))
          have h2 := h k
          rw [h1] at h2
          exact absurd (by simpa [Memory.read] using h2) hb
        · exact heq
        · have h1 : Memory.read ((k, b) :: m) l = Memory.unlisted := by
            refine Memory.read_of_forall_ne fun c hc => ?_
            rcases List.mem_cons.1 hc with rfl | hc
            · exact Nat.ne_of_gt hlt
            · exact Nat.ne_of_gt (Nat.lt_trans hlt (hmlt c hc))
          have h2 := h l
          rw [h1] at h2
          exact absurd (by simpa [Memory.read] using h2.symm) hb'
      subst hkl
      have hbb : b = b' := by simpa [Memory.read] using h k
      subst hbb
      have hmn : m = n := by
        refine ih (Memory.wf_tail hm) (Memory.wf_tail hn) fun i => ?_
        by_cases hik : k = i
        · subst hik
          rw [Memory.read_of_forall_ne fun c hc => Nat.ne_of_gt (hmlt c hc),
            Memory.read_of_forall_ne fun c hc => Nat.ne_of_gt (hnlt c hc)]
        · simpa [Memory.read, hik] using h i
      rw [hmn]

end Sys2Proof
end

