-- ==== Sys2Proof/Laws/State.lean ====
section
/-! SUPPORT. One lemma per field per update: what each named update of the registers and of the machine leaves in each
field, so that no later proof unfolds a record update. -/

namespace Sys2Proof.Machine

@[simp] theorem Engine.memWrite_phase (e : Engine) (a : Nat) (v : List Byte) :
    (e.memWrite a v).phase = e.phase := rfl

@[simp] theorem Engine.memWrite_alg (e : Engine) (a : Nat) (v : List Byte) :
    (e.memWrite a v).alg = e.alg := rfl

@[simp] theorem Engine.memWrite_state (e : Engine) (a : Nat) (v : List Byte) :
    (e.memWrite a v).state = e.state := rfl

@[simp] theorem Engine.memWrite_block (e : Engine) (a : Nat) (v : List Byte) :
    (e.memWrite a v).block = e.block.writeBytes a v := rfl

@[simp] theorem Engine.memWrite_curBlockLen (e : Engine) (a : Nat) (v : List Byte) :
    (e.memWrite a v).curBlockLen = e.curBlockLen := rfl

@[simp] theorem Engine.memWrite_compressedLen (e : Engine) (a : Nat) (v : List Byte) :
    (e.memWrite a v).compressedLen = e.compressedLen := rfl

@[simp] theorem Engine.setCurBlockLen_phase (e : Engine) (n : Nat) :
    (e.setCurBlockLen n).phase = e.phase := rfl

@[simp] theorem Engine.setCurBlockLen_alg (e : Engine) (n : Nat) :
    (e.setCurBlockLen n).alg = e.alg := rfl

@[simp] theorem Engine.setCurBlockLen_state (e : Engine) (n : Nat) :
    (e.setCurBlockLen n).state = e.state := rfl

@[simp] theorem Engine.setCurBlockLen_block (e : Engine) (n : Nat) :
    (e.setCurBlockLen n).block = e.block := rfl

@[simp] theorem Engine.setCurBlockLen_curBlockLen (e : Engine) (n : Nat) :
    (e.setCurBlockLen n).curBlockLen = BitVec.ofNat 8 n := rfl

@[simp] theorem Engine.setCurBlockLen_compressedLen (e : Engine) (n : Nat) :
    (e.setCurBlockLen n).compressedLen = e.compressedLen := rfl

@[simp] theorem Engine.setCompressedLen_phase (e : Engine) (n : Nat) :
    (e.setCompressedLen n).phase = e.phase := rfl

@[simp] theorem Engine.setCompressedLen_alg (e : Engine) (n : Nat) :
    (e.setCompressedLen n).alg = e.alg := rfl

@[simp] theorem Engine.setCompressedLen_state (e : Engine) (n : Nat) :
    (e.setCompressedLen n).state = e.state := rfl

@[simp] theorem Engine.setCompressedLen_block (e : Engine) (n : Nat) :
    (e.setCompressedLen n).block = e.block := rfl

@[simp] theorem Engine.setCompressedLen_curBlockLen (e : Engine) (n : Nat) :
    (e.setCompressedLen n).curBlockLen = e.curBlockLen := rfl

@[simp] theorem Engine.setCompressedLen_compressedLen (e : Engine) (n : Nat) :
    (e.setCompressedLen n).compressedLen = BitVec.ofNat 128 n := rfl

@[simp] theorem Engine.compress_phase (e : Engine) (u : Units) :
    (e.compress u).phase = e.phase := rfl

@[simp] theorem Engine.compress_alg (e : Engine) (u : Units) :
    (e.compress u).alg = e.alg := rfl

@[simp] theorem Engine.compress_state (e : Engine) (u : Units) :
    (e.compress u).state = u.apply e.alg.family e.state e.blockBytes := rfl

@[simp] theorem Engine.compress_block (e : Engine) (u : Units) :
    (e.compress u).block = e.block := rfl

@[simp] theorem Engine.compress_curBlockLen (e : Engine) (u : Units) :
    (e.compress u).curBlockLen = e.curBlockLen := rfl

@[simp] theorem Engine.compress_compressedLen (e : Engine) (u : Units) :
    (e.compress u).compressedLen = e.compressedLen := rfl

@[simp] theorem Engine.terminate_phase (e : Engine) :
    e.terminate.phase = .terminal := rfl

@[simp] theorem Engine.terminate_alg (e : Engine) :
    e.terminate.alg = e.alg := rfl

@[simp] theorem Engine.terminate_state (e : Engine) :
    e.terminate.state = e.state := rfl

@[simp] theorem Engine.terminate_block (e : Engine) :
    e.terminate.block = e.block := rfl

@[simp] theorem Engine.terminate_curBlockLen (e : Engine) :
    e.terminate.curBlockLen = e.curBlockLen := rfl

@[simp] theorem Engine.terminate_compressedLen (e : Engine) :
    e.terminate.compressedLen = e.compressedLen := rfl

@[simp] theorem State.raise_engine (s : State) (err : ErrorCode) :
    (s.raise err).engine = s.engine := rfl

@[simp] theorem State.raise_units (s : State) (err : ErrorCode) :
    (s.raise err).units = s.units := rfl

@[simp] theorem State.raise_inbox (s : State) (err : ErrorCode) :
    (s.raise err).inbox = s.inbox := rfl

@[simp] theorem State.raise_payload (s : State) (err : ErrorCode) :
    (s.raise err).payload = [] := rfl

@[simp] theorem State.raise_response (s : State) (err : ErrorCode) :
    (s.raise err).response = some ⟨responseWord err.code s.engine.phase 0, []⟩ := rfl

@[simp] theorem State.respondOk_engine (s : State) (e : Engine) (d : List Byte) :
    (s.respondOk e d).engine = e := rfl

@[simp] theorem State.respondOk_units (s : State) (e : Engine) (d : List Byte) :
    (s.respondOk e d).units = s.units := rfl

@[simp] theorem State.respondOk_inbox (s : State) (e : Engine) (d : List Byte) :
    (s.respondOk e d).inbox = s.inbox := rfl

@[simp] theorem State.respondOk_payload (s : State) (e : Engine) (d : List Byte) :
    (s.respondOk e d).payload = [] := rfl

@[simp] theorem State.respondOk_response (s : State) (e : Engine) (d : List Byte) :
    (s.respondOk e d).response = some ⟨responseWord 0 e.phase d.length, d⟩ := rfl

@[simp] theorem State.capture_engine (s : State) (c : Command) (rest : List HostAction) :
    (s.capture c rest).engine = s.engine := rfl

@[simp] theorem State.capture_units (s : State) (c : Command) (rest : List HostAction) :
    (s.capture c rest).units = s.units := rfl

@[simp] theorem State.capture_inbox (s : State) (c : Command) (rest : List HostAction) :
    (s.capture c rest).inbox = rest := rfl

@[simp] theorem State.capture_payload (s : State) (c : Command) (rest : List HostAction) :
    (s.capture c rest).payload = c.payload := rfl

@[simp] theorem State.capture_response (s : State) (c : Command) (rest : List HostAction) :
    (s.capture c rest).response = s.response := rfl

@[simp] theorem State.hardReset_engine (s : State) (rest : List HostAction) :
    (s.hardReset rest).engine = Engine.reset := rfl

@[simp] theorem State.hardReset_units (s : State) (rest : List HostAction) :
    (s.hardReset rest).units = s.units := rfl

@[simp] theorem State.hardReset_inbox (s : State) (rest : List HostAction) :
    (s.hardReset rest).inbox = rest := rfl

@[simp] theorem State.hardReset_payload (s : State) (rest : List HostAction) :
    (s.hardReset rest).payload = [] := rfl

@[simp] theorem State.hardReset_response (s : State) (rest : List HostAction) :
    (s.hardReset rest).response = none := rfl

@[simp] theorem State.placeCommand_engine (s : State) (h : PortWord) :
    (s.placeCommand h).engine = s.engine := rfl

@[simp] theorem State.placeCommand_units (s : State) (h : PortWord) :
    (s.placeCommand h).units = s.units := rfl

@[simp] theorem State.placeCommand_inbox (s : State) (h : PortWord) :
    (s.placeCommand h).inbox = .command ⟨h, zeroBytes (payloadLength h)⟩ :: s.inbox := rfl

@[simp] theorem State.placeCommand_payload (s : State) (h : PortWord) :
    (s.placeCommand h).payload = s.payload := rfl

@[simp] theorem State.placeCommand_response (s : State) (h : PortWord) :
    (s.placeCommand h).response = s.response := rfl

@[simp] theorem Engine.fresh_phase (a : Alg) :
    (Engine.fresh a).phase = .active := rfl

@[simp] theorem Engine.fresh_alg (a : Alg) :
    (Engine.fresh a).alg = a := rfl

@[simp] theorem Engine.fresh_state (a : Alg) :
    (Engine.fresh a).state = a.initialState := rfl

@[simp] theorem Engine.fresh_block (a : Alg) :
    (Engine.fresh a).block = Memory.writeBytes [] 0 (zeroBytes a.blockLength) := rfl

@[simp] theorem Engine.fresh_curBlockLen (a : Alg) :
    (Engine.fresh a).curBlockLen = 0 := rfl

@[simp] theorem Engine.fresh_compressedLen (a : Alg) :
    (Engine.fresh a).compressedLen = 0 := rfl

@[simp] theorem Engine.reset_phase : Engine.reset.phase = .unbound := rfl

@[simp] theorem Engine.reset_alg : Engine.reset.alg = .sha1 := rfl

@[simp] theorem Engine.reset_state : Engine.reset.state = [0, 0, 0, 0, 0] := rfl

@[simp] theorem Engine.reset_block : Engine.reset.block = [] := rfl

@[simp] theorem Engine.reset_curBlockLen : Engine.reset.curBlockLen = 0 := rfl

@[simp] theorem Engine.reset_compressedLen : Engine.reset.compressedLen = 0 := rfl

@[simp] theorem State.reset_engine : State.reset.engine = Engine.reset := rfl

@[simp] theorem State.reset_units : State.reset.units = Units.default := rfl

@[simp] theorem State.reset_inbox : State.reset.inbox = [] := rfl

@[simp] theorem State.reset_payload : State.reset.payload = [] := rfl

@[simp] theorem State.reset_response : State.reset.response = none := rfl

end Sys2Proof.Machine
end

