-- ==== Sys2Proof/Laws/Ops.lean ====
section
/-! SUPPORT. One lemma for each shared operation: sizes of the table's rows, byte order, the transform's dispatch, the codec,
framing, the admission tests. -/

namespace Sys2Proof.Machine

/-! ### The Algorithm Parameter Table -/

theorem blockLength_cases (a : Alg) :
    (a.blockLength = 64 ∧ a.lengthCounterWidth = 8) ∨ (a.blockLength = 128 ∧ a.lengthCounterWidth = 16) := by
  cases a <;> simp [Alg.blockLength, Alg.lengthCounterWidth, Alg.row]

theorem blockLength_pos (a : Alg) : 0 < a.blockLength := by
  have := blockLength_cases a
  omega

theorem blockLength_le (a : Alg) : a.blockLength ≤ 128 := by
  have := blockLength_cases a
  omega

theorem lengthCounterWidth_pos (a : Alg) : 0 < a.lengthCounterWidth := by
  have := blockLength_cases a
  omega

theorem lengthCounterWidth_lt (a : Alg) : a.lengthCounterWidth < a.blockLength := by
  have := blockLength_cases a
  omega

theorem length_initialState (a : Alg) : a.initialState.length = a.stateWidth := by
  cases a <;> rfl

theorem initialState_fits (a : Alg) : ∀ w ∈ a.initialState, w.toNat < 2 ^ (8 * a.wordSize) := by
  cases a <;> simp [Alg.initialState, Alg.wordSize, Alg.row]

/-! ### Byte order -/

@[simp] theorem length_enc (v n : Nat) (e : Endian) : (enc v n e).length = n := by
  cases e <;> simp [enc]

theorem getD_enc_big (v n i : Nat) (h : i < n) :
    (enc v n .big).getD i 0 = BitVec.ofNat 8 (v / 256 ^ (n - 1 - i) % 256) := by
  simp [enc, List.getD_eq_getElem?_getD, h]

theorem getD_enc_little (v n i : Nat) (h : i < n) :
    (enc v n .little).getD i 0 = BitVec.ofNat 8 (v / 256 ^ i % 256) := by
  simp [enc, List.getD_eq_getElem?_getD, h]

@[simp] theorem length_zeroBytes (k : Nat) : (zeroBytes k).length = k := by simp [zeroBytes]

theorem getD_zeroBytes (k i : Nat) : (zeroBytes k).getD i 0 = 0 := by
  simp [zeroBytes, List.getD_eq_getElem?_getD, List.getElem?_replicate]
  split <;> rfl

/-! ### The transform and its dispatch -/

theorem length_onBuffers {w n b : Nat} (t : Transform w n b) (st : List Word) (blk : List Byte) :
    (Transform.onBuffers t st blk).length = n := by
  simp [Transform.onBuffers, wordsOut]

theorem onBuffers_fits {w n b : Nat} (t : Transform w n b) (st : List Word) (blk : List Byte) :
    ∀ x ∈ Transform.onBuffers t st blk, x.toNat < 2 ^ w := by
  intro x hx
  simp only [Transform.onBuffers, wordsOut, List.mem_map] at hx
  obtain ⟨y, -, rfl⟩ := hx
  rw [BitVec.toNat_setWidth]
  exact Nat.lt_of_le_of_lt (Nat.mod_le _ _) y.isLt

/-- A transform returns the row's number of words (R140, R141). -/
theorem length_apply (u : Units) (a : Alg) (st : List Word) (blk : List Byte) :
    (u.apply a.family st blk).length = a.stateWidth := by
  cases a <;> simp [Units.apply, Alg.family, Alg.stateWidth, Alg.row, length_onBuffers]

/-- A transform returns words of the row's width (R140, R141). -/
theorem apply_fits (u : Units) (a : Alg) (st : List Word) (blk : List Byte) :
    ∀ x ∈ u.apply a.family st blk, x.toNat < 2 ^ (8 * a.wordSize) := by
  cases a <;> exact onBuffers_fits _ _ _

/-! ### COMPRESS and CODEC -/

@[simp] theorem length_blockBytes (e : Engine) : e.blockBytes.length = e.alg.blockLength := by
  simp [Engine.blockBytes]

/-- COMPRESS keeps the shape of the buffers (R143). -/
theorem shaped_compress {e : Engine} (h : e.Shaped) (u : Units) : (e.compress u).Shaped :=
  ⟨h.1, h.2.1, length_apply _ _ _ _, apply_fits _ _ _ _, h.2.2.2.2⟩

theorem codec_eq_serialise (e : Engine) : e.codec = serialise e.alg e.state := rfl

theorem length_serialise (a : Alg) (st : List Word) : (serialise a st).length = a.stateWidth * a.wordSize := by
  simp [serialise, List.length_flatMap]

/-- The digest is the whole state: `state_width * word_size` bytes (R197). -/
@[simp] theorem length_codec (e : Engine) : e.codec.length = e.alg.stateWidth * e.alg.wordSize := by
  rw [codec_eq_serialise, length_serialise]

/-! ### Framing and admission -/

/-- A command with a payload answers a next state exactly when the payload has the length the header gives, and then it is
what the command does on the payload (R94). -/
theorem withPayload_eq_next {n : Nat} {s : State} {f : List Byte → State} {t : State} :
    withPayload n s f = .next t ↔ s.payload.length = n ∧ f s.payload = t := by
  unfold withPayload
  split <;> simp_all

theorem withPayload_of_length {n : Nat} {s : State} {f : List Byte → State} (h : s.payload.length = n) :
    withPayload n s f = .next (f s.payload) := withPayload_eq_next.2 ⟨h, rfl⟩

theorem phaseError_eq_none {e : Engine} : e.phaseError = none ↔ e.phase = .active := by
  unfold Engine.phaseError
  split <;> simp_all

/-- UPDATE and ONESHOT are admitted exactly in the ACTIVE phase and within the length bound (R155, R205). -/
theorem absorbError_eq_none {n : Nat} {e : Engine} :
    e.absorbError n = none ↔
      e.phase = .active ∧
        (e.compressedLen.toNat + e.curBlockLen.toNat + n) * 8 < 2 ^ (8 * e.alg.lengthCounterWidth) := by
  have hp := @phaseError_eq_none e
  unfold Engine.absorbError
  split
  · simp_all
  · rename_i h
    simp [hp.1 h, Engine.lengthOverflows]

end Sys2Proof.Machine
end

