-- ==== Sys2Proof/Laws/Update.lean ====
section
/-! SUPPORT. What ABSORB does, said once: it is the same as absorbing byte by byte, and its closed form is that of
spec/42_update.md R161. -/

namespace Sys2Proof.Machine

/-! ### The frame of ABSORB -/

@[simp] theorem Engine.flushFull_phase (u : Units) (e : Engine) : (e.flushFull u).phase = e.phase := by
  unfold Engine.flushFull; split <;> rfl

@[simp] theorem Engine.flushFull_alg (u : Units) (e : Engine) : (e.flushFull u).alg = e.alg := by
  unfold Engine.flushFull; split <;> rfl

@[simp] theorem Engine.flushFull_block (u : Units) (e : Engine) : (e.flushFull u).block = e.block := by
  unfold Engine.flushFull; split <;> rfl

@[simp] theorem Engine.absorbRun_phase (u : Units) (left : List Byte) (e : Engine) :
    (e.absorbRun u left).phase = e.phase := by simp [Engine.absorbRun]

@[simp] theorem Engine.absorbRun_alg (u : Units) (left : List Byte) (e : Engine) :
    (e.absorbRun u left).alg = e.alg := by simp [Engine.absorbRun]

@[simp] theorem Engine.absorb_phase (u : Units) (p : List Byte) (e : Engine) : (e.absorb u p).phase = e.phase := by
  unfold Engine.absorb
  generalize p.length = fuel
  induction fuel generalizing p e with
  | zero => rfl
  | succ n ih => simp only [absorbLoop]; split <;> simp [ih]

@[simp] theorem Engine.absorb_alg (u : Units) (p : List Byte) (e : Engine) : (e.absorb u p).alg = e.alg := by
  unfold Engine.absorb
  generalize p.length = fuel
  induction fuel generalizing p e with
  | zero => rfl
  | succ n ih => simp only [absorbLoop]; split <;> simp [ih]

@[simp] theorem Engine.absorb_nil (u : Units) (e : Engine) : e.absorb u [] = e := rfl

/-! ### One byte at a time -/

/-- ABSORB of one byte (R157 with a payload of one byte). -/
def Engine.absorbByte (u : Units) (e : Engine) (b : Byte) : Engine :=
  ((e.memWrite e.curBlockLen.toNat [b]).setCurBlockLen (e.curBlockLen.toNat + 1)).flushFull u

@[simp] theorem Engine.absorbByte_phase (u : Units) (e : Engine) (b : Byte) : (e.absorbByte u b).phase = e.phase := by
  simp [Engine.absorbByte]

@[simp] theorem Engine.absorbByte_alg (u : Units) (e : Engine) (b : Byte) : (e.absorbByte u b).alg = e.alg := by
  simp [Engine.absorbByte]

theorem toNat_ofNat_8 {n : Nat} (h : n ≤ 128) : (BitVec.ofNat 8 n).toNat = n := by
  rw [BitVec.toNat_ofNat]
  omega

/-- A byte that does not fill the block is only copied. -/
theorem Engine.absorbByte_of_lt {e : Engine} {u : Units} {b : Byte} (h : e.curBlockLen.toNat + 1 < e.alg.blockLength) :
    e.absorbByte u b = (e.memWrite e.curBlockLen.toNat [b]).setCurBlockLen (e.curBlockLen.toNat + 1) := by
  have hB := blockLength_le e.alg
  unfold Engine.absorbByte Engine.flushFull
  rw [if_neg]
  simp only [Engine.setCurBlockLen_curBlockLen, Engine.setCurBlockLen_alg, Engine.memWrite_alg]
  rw [toNat_ofNat_8 (by omega)]
  omega

theorem Engine.setCurBlockLen_self (e : Engine) : e.setCurBlockLen e.curBlockLen.toNat = e := by
  simp [Engine.setCurBlockLen]

/-- Bytes that do not fill the block are only copied, one by one or in one run. -/
theorem Engine.foldl_absorbByte_of_lt {u : Units} {bs : List Byte} {e : Engine}
    (h : e.curBlockLen.toNat + bs.length < e.alg.blockLength) :
    bs.foldl (Engine.absorbByte u) e =
      (e.memWrite e.curBlockLen.toNat bs).setCurBlockLen (e.curBlockLen.toNat + bs.length) := by
  have hB := blockLength_le e.alg
  induction bs generalizing e with
  | nil => simp [Engine.setCurBlockLen, Engine.memWrite]
  | cons b bs ih =>
    simp only [List.length_cons] at h
    have hlt : e.curBlockLen.toNat + 1 < e.alg.blockLength := by omega
    have hcur : (BitVec.ofNat 8 (e.curBlockLen.toNat + 1)).toNat = e.curBlockLen.toNat + 1 := toNat_ofNat_8 (by omega)
    rw [List.foldl_cons, Engine.absorbByte_of_lt hlt, ih]
    · simp only [Engine.setCurBlockLen_curBlockLen, hcur]
      simp only [Engine.setCurBlockLen, Engine.memWrite, Memory.writeBytes, List.length_cons]
      congr 2
      omega
    · simp only [Engine.setCurBlockLen_curBlockLen, Engine.setCurBlockLen_alg, Engine.memWrite_alg, hcur]
      omega
    · simpa using hB

/-- Bytes that stop at the block's end are one run of ABSORB, or one by one. -/
theorem Engine.foldl_absorbByte_run {u : Units} {bs : List Byte} {e : Engine} (hne : bs ≠ [])
    (h : e.curBlockLen.toNat + bs.length ≤ e.alg.blockLength) :
    bs.foldl (Engine.absorbByte u) e =
      ((e.memWrite e.curBlockLen.toNat bs).setCurBlockLen (e.curBlockLen.toNat + bs.length)).flushFull u := by
  have hB := blockLength_le e.alg
  obtain ⟨init, b, rfl⟩ : ∃ init b, bs = init ++ [b] := ⟨bs.dropLast, bs.getLast hne, (List.dropLast_append_getLast hne).symm⟩
  simp only [List.length_append, List.length_cons, List.length_nil] at h
  have hcur : (BitVec.ofNat 8 (e.curBlockLen.toNat + init.length)).toNat = e.curBlockLen.toNat + init.length :=
    toNat_ofNat_8 (by omega)
  rw [List.foldl_append, Engine.foldl_absorbByte_of_lt (bs := init) (e := e) (by omega)]
  simp only [List.foldl_cons, List.foldl_nil, Engine.absorbByte, Engine.setCurBlockLen_curBlockLen, hcur]
  congr 1
  simp only [Engine.setCurBlockLen, Engine.memWrite, Memory.writeBytes_append, List.length_append, List.length_cons,
    List.length_nil]
  congr 2

theorem Engine.absorbByte_lt {e : Engine} (u : Units) (b : Byte) (h : e.curBlockLen.toNat < e.alg.blockLength) :
    (e.absorbByte u b).curBlockLen.toNat < e.alg.blockLength := by
  have hB := blockLength_le e.alg
  have hcur : (BitVec.ofNat 8 (e.curBlockLen.toNat + 1)).toNat = e.curBlockLen.toNat + 1 := toNat_ofNat_8 (by omega)
  unfold Engine.absorbByte Engine.flushFull
  simp only [Engine.setCurBlockLen_curBlockLen, Engine.setCurBlockLen_alg, Engine.memWrite_alg, hcur]
  split
  · simpa using blockLength_pos e.alg
  · simp only [Engine.setCurBlockLen_curBlockLen, hcur]
    omega

theorem Engine.foldl_absorbByte_lt {e : Engine} (u : Units) (bs : List Byte)
    (h : e.curBlockLen.toNat < e.alg.blockLength) :
    (bs.foldl (Engine.absorbByte u) e).curBlockLen.toNat < e.alg.blockLength ∧
      (bs.foldl (Engine.absorbByte u) e).alg = e.alg := by
  induction bs generalizing e with
  | nil => exact ⟨h, rfl⟩
  | cons b bs ih =>
    have := ih (e := e.absorbByte u b) (by simpa using Engine.absorbByte_lt u b h)
    simpa using this

/-- One iteration of ABSORB is its bytes, one by one (R157). -/
theorem Engine.absorbRun_eq_foldl {u : Units} {left : List Byte} {e : Engine} (hne : left ≠ [])
    (h : e.curBlockLen.toNat < e.alg.blockLength) :
    e.absorbRun u left = (left.take (e.take left)).foldl (Engine.absorbByte u) e := by
  have hlen : 0 < left.length := List.length_pos_iff.2 hne
  have htake : (left.take (e.take left)).length = e.take left := by
    simp [Engine.take]
  rw [Engine.foldl_absorbByte_run]
  · rw [htake]
    rfl
  · rw [ne_eq, ← List.length_eq_zero_iff, htake, Engine.take]
    omega
  · rw [htake, Engine.take]
    omega

/-- ABSORB is the absorption of its bytes, one by one, in order (R157). -/
theorem Engine.absorb_eq_foldl {u : Units} {p : List Byte} {e : Engine} (h : e.curBlockLen.toNat < e.alg.blockLength) :
    e.absorb u p = p.foldl (Engine.absorbByte u) e := by
  unfold Engine.absorb
  suffices H : ∀ fuel (q : List Byte) (f : Engine), f.curBlockLen.toNat < f.alg.blockLength → q.length ≤ fuel →
      absorbLoop u fuel q f = q.foldl (Engine.absorbByte u) f from H _ p e h (Nat.le_refl _)
  intro fuel
  induction fuel with
  | zero =>
    intro q f _ hq
    have : q = [] := List.length_eq_zero_iff.1 (Nat.le_zero.1 hq)
    subst this
    rfl
  | succ n ih =>
    intro q f hf hq
    unfold absorbLoop
    cases q with
    | nil => rfl
    | cons b q =>
      have hne : b :: q ≠ [] := List.cons_ne_nil _ _
      simp only [List.isEmpty_cons, Bool.false_eq_true, if_false]
      have hrun := Engine.absorbRun_eq_foldl (u := u) hne hf
      have hlt := Engine.foldl_absorbByte_lt u ((b :: q).take (f.take (b :: q))) hf
      rw [ih]
      · rw [hrun, ← List.foldl_append, List.take_append_drop]
      · rw [hrun, hlt.2]
        exact hlt.1
      · have htake : 1 ≤ f.take (b :: q) := by
          simp only [Engine.take, List.length_cons]
          omega
        simp only [List.length_drop]
        omega

/-! ### The closed form (R161) -/

theorem blockAt_append {B : Nat} {w v : List Byte} {j : Nat} (h : (j + 1) * B ≤ w.length) :
    blockAt B (w ++ v) j = blockAt B w j := by
  unfold blockAt
  have h1 : j * B + B ≤ w.length := by rwa [Nat.succ_mul] at h
  rw [List.drop_append_of_le_length (by omega), List.take_append_of_le_length (by simp; omega)]

theorem chain_succ (u : Units) (a : Alg) (st : List Word) (w : List Byte) (k : Nat) :
    chain u a st w (k + 1) = u.apply a.family (chain u a st w k) (blockAt a.blockLength w k) := by
  simp [chain, List.range_succ]

theorem chain_append {u : Units} {a : Alg} {st : List Word} {w v : List Byte} {k : Nat}
    (h : k * a.blockLength ≤ w.length) : chain u a st (w ++ v) k = chain u a st w k := by
  induction k with
  | zero => simp [chain]
  | succ k ih =>
    have hk : k * a.blockLength ≤ w.length := Nat.le_trans (Nat.mul_le_mul_right _ (Nat.le_succ k)) h
    rw [chain_succ, chain_succ, ih hk, blockAt_append h]

/-- What ABSORB leaves, in terms of `w = block[0 .. c) ++ P` (R161). -/
structure Engine.Absorbed (u : Units) (e : Engine) (w : List Byte) (f : Engine) : Prop where
  phase : f.phase = e.phase
  alg : f.alg = e.alg
  state : f.state = chain u e.alg e.state w (w.length / e.alg.blockLength)
  cur : f.curBlockLen.toNat = w.length % e.alg.blockLength
  count : f.compressedLen.toNat = e.compressedLen.toNat + w.length / e.alg.blockLength * e.alg.blockLength
  fresh : ∀ i < w.length % e.alg.blockLength,
    f.block.read i = w.getD (w.length / e.alg.blockLength * e.alg.blockLength + i) 0
  stale : ∀ i, w.length % e.alg.blockLength ≤ i → i < e.alg.blockLength →
    f.block.read i =
      if w.length / e.alg.blockLength = 0 then e.block.read i
      else w.getD ((w.length / e.alg.blockLength - 1) * e.alg.blockLength + i) 0
  shaped : f.Shaped

theorem divMod_succ_lt {n B : Nat} (h : n % B + 1 < B) : (n + 1) / B = n / B ∧ (n + 1) % B = n % B + 1 := by
  have hB : 0 < B := by omega
  have h0 := Nat.div_add_mod n B
  constructor
  · rw [Nat.div_eq_iff hB]
    constructor
    · rw [Nat.mul_comm]; omega
    · rw [Nat.mul_comm]; omega
  · have : n + 1 = B * (n / B) + (n % B + 1) := by omega
    rw [this, Nat.mul_add_mod, Nat.mod_eq_of_lt h]

theorem divMod_succ_eq {n B : Nat} (hB : 0 < B) (h : n % B + 1 = B) : (n + 1) / B = n / B + 1 ∧ (n + 1) % B = 0 := by
  have h0 := Nat.div_add_mod n B
  have h1 : n + 1 = B * (n / B + 1) := by rw [Nat.mul_succ]; omega
  constructor
  · rw [h1, Nat.mul_div_cancel_left _ hB]
  · rw [h1, Nat.mul_mod_right]

theorem getD_append_lt {w v : List Byte} {i : Nat} (h : i < w.length) : (w ++ v).getD i 0 = w.getD i 0 := by
  simp [List.getD_eq_getElem?_getD, List.getElem?_append_left h]

theorem getD_append_length (w : List Byte) (b : Byte) : (w ++ [b]).getD w.length 0 = b := by
  simp [List.getD_eq_getElem?_getD]

/-- Writing one byte inside the block keeps the shape. -/
theorem shaped_write {e : Engine} (h : e.Shaped) (b : Byte) {n : Nat} (hn : n < e.alg.blockLength) :
    ((e.memWrite e.curBlockLen.toNat [b]).setCurBlockLen n).Shaped := by
  have hB := blockLength_le e.alg
  refine ⟨Memory.wf_writeBytes h.1 _ _, Memory.lt_of_mem_writeBytes h.2.1 _ _ ?_, h.2.2.1, h.2.2.2.1, ?_⟩
  · have := h.2.2.2.2
    simpa using this
  · simpa [toNat_ofNat_8 (show n ≤ 128 by omega)] using hn

/-- One more byte absorbed (the step of R161). -/
theorem Engine.Absorbed.snoc {u : Units} {e f : Engine} {w : List Byte} (h : e.Absorbed u w f) (b : Byte)
    (hbound : e.compressedLen.toNat + (w.length + 1) < 2 ^ 128) : e.Absorbed u (w ++ [b]) (f.absorbByte u b) := by
  obtain ⟨hphase, halg, hstate, hcur, hcount, hfresh, hstale, hshaped⟩ := h
  have hBpos := blockLength_pos e.alg
  have hBle := blockLength_le e.alg
  have hwf : f.block.wf := hshaped.1
  have hread : ∀ i, (f.block.writeBytes f.curBlockLen.toNat [b]).read i =
      if i = f.curBlockLen.toNat then b else f.block.read i := by
    intro i
    rw [Memory.read_writeBytes hwf]
    by_cases hi : i = f.curBlockLen.toNat
    · simp [hi]
    · rw [if_neg hi, if_neg]
      simp only [List.length_cons, List.length_nil]
      omega
  have hlen : (w ++ [b]).length = w.length + 1 := by simp
  have hdm := Nat.div_add_mod w.length e.alg.blockLength
  rw [Nat.mul_comm] at hdm
  have hmodlt := Nat.mod_lt w.length hBpos
  by_cases hfull : w.length % e.alg.blockLength + 1 = e.alg.blockLength
  · obtain ⟨hq, hr⟩ := divMod_succ_eq hBpos hfull
    have hcur' : (BitVec.ofNat 8 (f.curBlockLen.toNat + 1)).toNat = e.alg.blockLength := by
      rw [toNat_ofNat_8 (by omega), hcur, hfull]
    have hblk : Memory.readBytes (f.block.writeBytes f.curBlockLen.toNat [b]) 0 e.alg.blockLength =
        blockAt e.alg.blockLength (w ++ [b]) (w.length / e.alg.blockLength) := by
      apply List.ext_getElem?
      intro i
      by_cases hi : i < e.alg.blockLength
      · simp only [Memory.readBytes, blockAt, List.getElem?_map, List.getElem?_range hi, Option.map_some,
          List.getElem?_take_of_lt hi, List.getElem?_drop, Nat.zero_add, hread]
        by_cases hic : i = f.curBlockLen.toNat
        · rw [if_pos hic]
          have : w.length / e.alg.blockLength * e.alg.blockLength + i = w.length := by omega
          rw [this]
          simp
        · rw [if_neg hic, hfresh i (by omega)]
          have hlt : w.length / e.alg.blockLength * e.alg.blockLength + i < w.length := by omega
          rw [List.getElem?_append_left hlt, List.getD_eq_getElem?_getD, List.getElem?_eq_getElem hlt]
          simp
      · rw [List.getElem?_eq_none (by simpa using hi), List.getElem?_eq_none]
        simp only [blockAt, List.length_take]
        omega
    have hval : f.absorbByte u b =
        ((((f.memWrite f.curBlockLen.toNat [b]).setCurBlockLen (f.curBlockLen.toNat + 1)).compress u).setCurBlockLen
          0).setCompressedLen (f.compressedLen.toNat + e.alg.blockLength) := by
      unfold Engine.absorbByte Engine.flushFull
      rw [if_pos (by simpa [halg] using hcur')]
      simp [halg]
    rw [hval]
    refine ⟨by simpa using hphase, by simpa using halg, ?_, ?_, ?_, ?_, ?_, ?_⟩
    · simp only [Engine.setCompressedLen_state, Engine.setCurBlockLen_state, Engine.compress_state,
        Engine.setCurBlockLen_alg, Engine.memWrite_alg, Engine.memWrite_state, halg, hstate]
      rw [hlen, hq, chain_succ, chain_append (by omega)]
      congr 1
      simpa [Engine.blockBytes, halg] using hblk
    · simp [hr]
    · simp only [Engine.setCompressedLen_compressedLen, hlen, hq]
      rw [BitVec.toNat_ofNat, Nat.mod_eq_of_lt, hcount, Nat.add_mul]
      · omega
      · rw [hcount]
        omega
    · intro i hi
      rw [hlen, hr] at hi
      omega
    · intro i _ hi
      simp only [Engine.setCompressedLen_block, Engine.setCurBlockLen_block, Engine.compress_block, Engine.memWrite_block,
        hread]
      rw [hlen, hq, if_neg (Nat.succ_ne_zero _), Nat.add_sub_cancel]
      by_cases hic : i = f.curBlockLen.toNat
      · rw [if_pos hic]
        have : w.length / e.alg.blockLength * e.alg.blockLength + i = w.length := by omega
        rw [this, getD_append_length]
      · rw [if_neg hic, hfresh i (by omega), getD_append_lt (by omega)]
    · have h0 : (0 : Nat) < f.alg.blockLength := by rw [halg]; exact hBpos
      have hw := shaped_write hshaped b h0
      exact ⟨hw.1, hw.2.1, length_apply _ _ _ _, apply_fits _ _ _ _, hw.2.2.2.2⟩
  · have hlt : w.length % e.alg.blockLength + 1 < e.alg.blockLength := by omega
    obtain ⟨hq, hr⟩ := divMod_succ_lt hlt
    have hcur' : (BitVec.ofNat 8 (f.curBlockLen.toNat + 1)).toNat = w.length % e.alg.blockLength + 1 := by
      rw [toNat_ofNat_8 (by omega), hcur]
    rw [Engine.absorbByte_of_lt (by rw [halg]; omega)]
    refine ⟨by simpa using hphase, by simpa using halg, ?_, ?_, ?_, ?_, ?_, ?_⟩
    · simp only [Engine.setCurBlockLen_state, Engine.memWrite_state, hlen, hq, hstate]
      rw [chain_append (by omega)]
    · simp [hlen, hr, hcur']
    · simp [hlen, hq, hcount]
    · intro i hi
      rw [hlen, hr] at hi
      simp only [Engine.setCurBlockLen_block, Engine.memWrite_block, hread]
      rw [hlen, hq]
      by_cases hic : i = f.curBlockLen.toNat
      · rw [if_pos hic]
        have : w.length / e.alg.blockLength * e.alg.blockLength + i = w.length := by omega
        rw [this, getD_append_length]
      · rw [if_neg hic, hfresh i (by omega), getD_append_lt (by omega)]
    · intro i hi hiB
      rw [hlen, hr] at hi
      simp only [Engine.setCurBlockLen_block, Engine.memWrite_block, hread]
      have hic : ¬i = f.curBlockLen.toNat := by omega
      rw [hlen, hq, if_neg hic, hstale i (by omega) hiB]
      split
      · rfl
      · rename_i hk
        have hk1 : w.length / e.alg.blockLength - 1 + 1 = w.length / e.alg.blockLength :=
          Nat.sub_add_cancel (Nat.one_le_iff_ne_zero.2 hk)
        have hmul : (w.length / e.alg.blockLength - 1) * e.alg.blockLength + e.alg.blockLength =
            w.length / e.alg.blockLength * e.alg.blockLength := by
          rw [← Nat.succ_mul]
          congr 1
        rw [getD_append_lt (by omega)]
    · exact shaped_write hshaped b (by rw [halg, hcur]; omega)

/-- ABSORB of nothing. -/
theorem Engine.Absorbed.start {u : Units} {e : Engine} (h : e.Shaped) :
    e.Absorbed u (e.block.readBytes 0 e.curBlockLen.toNat) e := by
  have hlt := h.2.2.2.2
  have hq : e.curBlockLen.toNat / e.alg.blockLength = 0 := Nat.div_eq_of_lt hlt
  have hr : e.curBlockLen.toNat % e.alg.blockLength = e.curBlockLen.toNat := Nat.mod_eq_of_lt hlt
  refine ⟨rfl, rfl, ?_, ?_, ?_, ?_, ?_, h⟩
  · simp [hq, chain]
  · simp [hr]
  · simp [hq]
  · intro i hi
    rw [Memory.length_readBytes, hr] at hi
    rw [Memory.length_readBytes, hq, Nat.zero_mul, Nat.zero_add, Memory.getD_readBytes _ _ _ _ hi, Nat.zero_add]
  · intro i _ _
    rw [Memory.length_readBytes, hq, if_pos rfl]

/-- The closed form of ABSORB (R161): with `w = block[0 .. c) ++ P`, it leaves what `Engine.Absorbed` says. -/
theorem Engine.absorbed_absorb {u : Units} {e : Engine} (h : e.Shaped) (p : List Byte)
    (hbound : e.compressedLen.toNat + e.curBlockLen.toNat + p.length < 2 ^ 128) :
    e.Absorbed u (e.block.readBytes 0 e.curBlockLen.toNat ++ p) (e.absorb u p) := by
  rw [Engine.absorb_eq_foldl h.2.2.2.2]
  induction p using List.reverseRecOn with
  | nil => simpa using Engine.Absorbed.start h
  | append_singleton p b ih =>
    rw [List.length_append, List.length_singleton] at hbound
    have := ih (by omega)
    rw [List.foldl_append, ← List.append_assoc]
    exact this.snoc b (by simp; omega)

end Sys2Proof.Machine
end

