-- ==== Sys2Proof/Laws/Finish.lean ====
section
/-! SUPPORT. What FINALIZE does, said once: the closed form of spec/43_finish.md R178. -/

namespace Sys2Proof.Machine

/-- The bytes that steps 1 to 5 hand to the transform: the partial block's message bytes, the marker, `z` zeros with
`z = (B - L - 1 - r) mod B`, and the length field (R178). -/
def Engine.lastBytes (e : Engine) : List Byte :=
  e.block.readBytes 0 e.curBlockLen.toNat ++ 0x80 ::
    (zeroBytes ((2 * e.alg.blockLength - e.alg.lengthCounterWidth - 1 - e.curBlockLen.toNat) % e.alg.blockLength) ++
      enc ((e.compressedLen.toNat + e.curBlockLen.toNat) * 8) e.alg.lengthCounterWidth e.alg.outputEndianness)

theorem getD_append (v w : List Byte) (i : Nat) :
    (v ++ w).getD i 0 = if i < v.length then v.getD i 0 else w.getD (i - v.length) 0 := by
  split
  · exact getD_append_lt ‹_›
  · simp [List.getD_eq_getElem?_getD, List.getElem?_append_right (Nat.le_of_not_lt ‹_›)]

/-- One offset of the last bytes. -/
theorem Engine.getD_lastBytes (e : Engine) (i : Nat) :
    e.lastBytes.getD i 0 =
      if i < e.curBlockLen.toNat then e.block.read i
      else if i = e.curBlockLen.toNat then 0x80
      else
        if i - (e.curBlockLen.toNat + 1) <
            (2 * e.alg.blockLength - e.alg.lengthCounterWidth - 1 - e.curBlockLen.toNat) % e.alg.blockLength then 0
        else
          (enc ((e.compressedLen.toNat + e.curBlockLen.toNat) * 8) e.alg.lengthCounterWidth
            e.alg.outputEndianness).getD (i - (e.curBlockLen.toNat + 1) -
              (2 * e.alg.blockLength - e.alg.lengthCounterWidth - 1 - e.curBlockLen.toNat) % e.alg.blockLength) 0 := by
  unfold Engine.lastBytes
  rw [getD_append, Memory.length_readBytes]
  split
  · rw [Memory.getD_readBytes _ _ _ _ ‹_›, Nat.zero_add]
  · split
    · rename_i h
      simp [h]
    · have h1 : i - e.curBlockLen.toNat = (i - (e.curBlockLen.toNat + 1)) + 1 := by omega
      rw [h1, List.getD_cons_succ, getD_append, length_zeroBytes, getD_zeroBytes]

theorem Engine.blockBytes_eq_blockAt {e : Engine} {w : List Byte} {j : Nat} (hlen : (j + 1) * e.alg.blockLength ≤ w.length)
    (h : ∀ i < e.alg.blockLength, e.block.read i = w.getD (j * e.alg.blockLength + i) 0) :
    e.blockBytes = blockAt e.alg.blockLength w j := by
  rw [Nat.succ_mul] at hlen
  apply List.ext_getElem?
  intro i
  by_cases hi : i < e.alg.blockLength
  · simp only [Engine.blockBytes, Memory.readBytes, blockAt, List.getElem?_map, List.getElem?_range hi, Option.map_some,
      List.getElem?_take_of_lt hi, List.getElem?_drop, Nat.zero_add, h i hi]
    have hlt : j * e.alg.blockLength + i < w.length := by omega
    rw [List.getD_eq_getElem?_getD, List.getElem?_eq_getElem hlt]
    simp
  · rw [List.getElem?_eq_none (by simpa using hi), List.getElem?_eq_none]
    simp only [blockAt, List.length_take]
    omega

/-- What steps 1 to 5 leave (R178). -/
structure Engine.Padded (u : Units) (e f : Engine) : Prop where
  phase : f.phase = e.phase
  alg : f.alg = e.alg
  length : e.lastBytes.length =
    if e.curBlockLen.toNat < e.alg.blockLength - e.alg.lengthCounterWidth then e.alg.blockLength
    else 2 * e.alg.blockLength
  state : f.state = chain u e.alg e.state e.lastBytes (e.lastBytes.length / e.alg.blockLength)
  cur : f.curBlockLen.toNat =
    if e.curBlockLen.toNat < e.alg.blockLength - e.alg.lengthCounterWidth then e.curBlockLen.toNat + 1 else 0
  count : f.compressedLen.toNat = e.compressedLen.toNat + e.curBlockLen.toNat
  block : ∀ i < e.alg.blockLength, f.block.read i = e.lastBytes.getD (e.lastBytes.length - e.alg.blockLength + i) 0
  shaped : f.Shaped

theorem Engine.memWrite_shaped {e : Engine} (h : e.Shaped) (a : Nat) (v : List Byte)
    (hv : a + v.length ≤ e.alg.blockLength) : (e.memWrite a v).Shaped :=
  ⟨Memory.wf_writeBytes h.1 _ _, Memory.lt_of_mem_writeBytes h.2.1 _ _ hv, h.2.2.1, h.2.2.2.1, h.2.2.2.2⟩

/-- The closed form of steps 1 to 5 (R178). -/
theorem Engine.padded_padAndCompress {u : Units} {e : Engine} (h : e.Shaped)
    (hbound : e.compressedLen.toNat + e.curBlockLen.toNat < 2 ^ 128) : e.Padded u (e.padAndCompress u) := by
  have hB := blockLength_cases e.alg
  have hr := h.2.2.2.2
  have hwf := h.1
  have hcomp : (BitVec.ofNat 128 (e.compressedLen.toNat + e.curBlockLen.toNat)).toNat =
      e.compressedLen.toNat + e.curBlockLen.toNat := by
    rw [BitVec.toNat_ofNat, Nat.mod_eq_of_lt hbound]
  have hcur : (BitVec.ofNat 8 (e.curBlockLen.toNat + 1)).toNat = e.curBlockLen.toNat + 1 := toNat_ofNat_8 (by omega)
  have hlenLast : e.lastBytes.length = e.curBlockLen.toNat + (1 +
      ((2 * e.alg.blockLength - e.alg.lengthCounterWidth - 1 - e.curBlockLen.toNat) % e.alg.blockLength +
        e.alg.lengthCounterWidth)) := by
    simp [Engine.lastBytes]
    omega
  have hwfm : (e.block.writeBytes e.curBlockLen.toNat [0x80]).wf := Memory.wf_writeBytes hwf _ _
  by_cases hfit : e.curBlockLen.toNat < e.alg.blockLength - e.alg.lengthCounterWidth
  · -- one block
    have hz : (2 * e.alg.blockLength - e.alg.lengthCounterWidth - 1 - e.curBlockLen.toNat) % e.alg.blockLength =
        e.alg.blockLength - e.alg.lengthCounterWidth - 1 - e.curBlockLen.toNat := by
      rw [show 2 * e.alg.blockLength - e.alg.lengthCounterWidth - 1 - e.curBlockLen.toNat =
        (e.alg.blockLength - e.alg.lengthCounterWidth - 1 - e.curBlockLen.toNat) + e.alg.blockLength by omega,
        Nat.add_mod_right, Nat.mod_eq_of_lt (by omega)]
    have hlen : e.lastBytes.length = e.alg.blockLength := by omega
    have hspill : e.appendMarker.spills = false := by
      simp only [Engine.spills, Engine.appendMarker, Engine.setCurBlockLen_alg, Engine.setCompressedLen_alg,
        Engine.memWrite_alg, Engine.setCurBlockLen_curBlockLen, hcur, decide_eq_false_iff_not]
      omega
    have hval : e.padAndCompress u = (e.appendMarker.zeroFill.writeLength).compress u := by
      simp [Engine.padAndCompress, Engine.extraBlock, hspill]
    have hread : ∀ i < e.alg.blockLength, e.appendMarker.zeroFill.writeLength.block.read i = e.lastBytes.getD i 0 := by
      intro i hi
      simp only [Engine.writeLength, Engine.zeroFill, Engine.appendMarker, Engine.memWrite_block, Engine.memWrite_alg,
        Engine.setCurBlockLen_block, Engine.setCompressedLen_block, Engine.setCurBlockLen_alg, Engine.setCompressedLen_alg,
        Engine.setCurBlockLen_curBlockLen, Engine.setCurBlockLen_compressedLen, Engine.memWrite_compressedLen,
        Engine.setCompressedLen_compressedLen, hcur, hcomp]
      rw [Memory.read_writeBytes (Memory.wf_writeBytes hwfm _ _), Memory.read_writeBytes hwfm,
        Memory.read_writeBytes hwf, getD_zeroBytes, Engine.getD_lastBytes, length_zeroBytes, length_enc, hz]
      simp only [List.length_cons, List.length_nil]
      by_cases h1 : e.alg.blockLength - e.alg.lengthCounterWidth ≤ i
      · rw [if_pos ⟨h1, by omega⟩, if_neg (by omega), if_neg (by omega), if_neg (by omega)]
        congr 1
        omega
      · rw [if_neg (by omega)]
        by_cases h2 : e.curBlockLen.toNat + 1 ≤ i
        · rw [if_pos ⟨h2, by omega⟩, if_neg (by omega), if_neg (by omega), if_pos (by omega)]
        · rw [if_neg (by omega)]
          by_cases h3 : i = e.curBlockLen.toNat
          · rw [if_pos (by omega), if_neg (by omega), if_pos h3, h3]
            simp
          · rw [if_neg (by omega), if_pos (by omega)]
    have halg : e.appendMarker.zeroFill.writeLength.alg = e.alg := rfl
    rw [hval]
    refine ⟨rfl, rfl, ?_, ?_, ?_, ?_, ?_, ?_⟩
    · rw [hlen, if_pos hfit]
    · rw [hlen, Nat.div_self (by omega), chain_succ]
      simp only [chain, List.range_zero, List.foldl_nil, Engine.compress_state, halg]
      rw [Engine.blockBytes_eq_blockAt (w := e.lastBytes) (j := 0)]
      · rfl
      · rw [halg]; omega
      · intro i hi
        rw [Nat.zero_mul, Nat.zero_add]
        exact hread i hi
    · rw [if_pos hfit]
      exact hcur
    · exact hcomp
    · intro i hi
      rw [hlen, Nat.sub_self, Nat.zero_add]
      exact hread i hi
    · refine shaped_compress ?_ u
      have h1 : e.appendMarker.Shaped := by
        have := shaped_write h 0x80 (n := e.curBlockLen.toNat + 1) (by omega)
        exact ⟨this.1, this.2.1, this.2.2.1, this.2.2.2.1, this.2.2.2.2⟩
      refine Engine.memWrite_shaped (Engine.memWrite_shaped h1 _ _ ?_) _ _ ?_
      · show (BitVec.ofNat 8 (e.curBlockLen.toNat + 1)).toNat +
          (zeroBytes (e.alg.blockLength - e.alg.lengthCounterWidth -
            (BitVec.ofNat 8 (e.curBlockLen.toNat + 1)).toNat)).length ≤ e.alg.blockLength
        rw [length_zeroBytes, hcur]
        omega
      · show e.alg.blockLength - e.alg.lengthCounterWidth + (enc _ e.alg.lengthCounterWidth _).length ≤ e.alg.blockLength
        rw [length_enc]
        omega
  · -- two blocks
    have hz : (2 * e.alg.blockLength - e.alg.lengthCounterWidth - 1 - e.curBlockLen.toNat) % e.alg.blockLength =
        2 * e.alg.blockLength - e.alg.lengthCounterWidth - 1 - e.curBlockLen.toNat := Nat.mod_eq_of_lt (by omega)
    have hlen : e.lastBytes.length = 2 * e.alg.blockLength := by omega
    have hspill : e.appendMarker.spills = true := by
      simp only [Engine.spills, Engine.appendMarker, Engine.setCurBlockLen_alg, Engine.setCompressedLen_alg,
        Engine.memWrite_alg, Engine.setCurBlockLen_curBlockLen, hcur, decide_eq_true_eq]
      omega
    obtain ⟨g, hg⟩ : ∃ g, g = e.appendMarker.memWrite e.appendMarker.curBlockLen.toNat
        (zeroBytes (e.appendMarker.alg.blockLength - e.appendMarker.curBlockLen.toNat)) := ⟨_, rfl⟩
    have hval : e.padAndCompress u = ((((g.compress u).setCurBlockLen 0).zeroFill).writeLength).compress u := by
      simp [Engine.padAndCompress, Engine.extraBlock, hspill, hg]
    have hgalg : g.alg = e.alg := by rw [hg]; rfl
    have hgstate : g.state = e.state := by rw [hg]; rfl
    have hgphase : g.phase = e.phase := by rw [hg]; rfl
    have hgcount : g.compressedLen.toNat = e.compressedLen.toNat + e.curBlockLen.toNat := by rw [hg]; exact hcomp
    have hgblock : g.block = (e.block.writeBytes e.curBlockLen.toNat [0x80]).writeBytes (e.curBlockLen.toNat + 1)
        (zeroBytes (e.alg.blockLength - (e.curBlockLen.toNat + 1))) := by
      rw [hg]
      simp only [Engine.appendMarker, Engine.memWrite_block, Engine.setCurBlockLen_block, Engine.setCompressedLen_block,
        Engine.setCurBlockLen_alg, Engine.setCompressedLen_alg, Engine.memWrite_alg, Engine.setCurBlockLen_curBlockLen, hcur]
    have hgwf : g.block.wf := by rw [hgblock]; exact Memory.wf_writeBytes hwfm _ _
    have hgread : ∀ i < e.alg.blockLength, g.block.read i = e.lastBytes.getD i 0 := by
      intro i hi
      rw [hgblock, Memory.read_writeBytes hwfm, Memory.read_writeBytes hwf, getD_zeroBytes, Engine.getD_lastBytes,
        length_zeroBytes, hz]
      simp only [List.length_cons, List.length_nil]
      by_cases h2 : e.curBlockLen.toNat + 1 ≤ i
      · rw [if_pos ⟨h2, by omega⟩, if_neg (by omega), if_neg (by omega), if_pos (by omega)]
      · rw [if_neg (by omega)]
        by_cases h3 : i = e.curBlockLen.toNat
        · rw [if_pos (by omega), if_neg (by omega), if_pos h3, h3]
          simp
        · rw [if_neg (by omega), if_pos (by omega)]
    have hread : ∀ i < e.alg.blockLength,
        ((((g.compress u).setCurBlockLen 0).zeroFill).writeLength).block.read i =
          e.lastBytes.getD (e.alg.blockLength + i) 0 := by
      intro i hi
      simp only [Engine.writeLength, Engine.zeroFill, Engine.memWrite_block, Engine.memWrite_alg,
        Engine.setCurBlockLen_block, Engine.setCurBlockLen_alg, Engine.compress_alg, Engine.compress_block,
        Engine.setCurBlockLen_curBlockLen, Engine.setCurBlockLen_compressedLen, Engine.memWrite_compressedLen,
        Engine.compress_compressedLen, hgalg, hgcount]
      rw [Memory.read_writeBytes (Memory.wf_writeBytes hgwf _ _), Memory.read_writeBytes hgwf, getD_zeroBytes,
        Engine.getD_lastBytes, length_zeroBytes, length_enc, hz]
      simp only [BitVec.toNat_ofNat, Nat.zero_mod, Nat.sub_zero]
      by_cases h1 : e.alg.blockLength - e.alg.lengthCounterWidth ≤ i
      · rw [if_pos ⟨h1, by omega⟩, if_neg (by omega), if_neg (by omega), if_neg (by omega)]
        congr 1
        omega
      · rw [if_neg (by omega), if_pos (by omega), if_neg (by omega), if_neg (by omega), if_pos (by omega)]
    have halg : ((((g.compress u).setCurBlockLen 0).zeroFill).writeLength).alg = e.alg := hgalg
    have hst : ((((g.compress u).setCurBlockLen 0).zeroFill).writeLength).state =
        u.apply e.alg.family e.state (blockAt e.alg.blockLength e.lastBytes 0) := by
      show u.apply g.alg.family g.state g.blockBytes = _
      rw [Engine.blockBytes_eq_blockAt (w := e.lastBytes) (j := 0), hgalg, hgstate]
      · rw [hgalg]; omega
      · intro i hi
        rw [Nat.zero_mul, Nat.zero_add]
        exact hgread i (by rwa [hgalg] at hi)
    rw [hval]
    refine ⟨hgphase, hgalg, ?_, ?_, ?_, ?_, ?_, ?_⟩
    · rw [hlen, if_neg hfit]
    · rw [hlen, Nat.mul_div_cancel _ (by omega), chain_succ, chain_succ]
      simp only [chain, List.range_zero, List.foldl_nil, Engine.compress_state, halg, hst]
      rw [Engine.blockBytes_eq_blockAt (w := e.lastBytes) (j := 1), halg]
      · rw [halg]; omega
      · intro i hi
        rw [halg] at hi ⊢
        rw [Nat.one_mul]
        exact hread i hi
    · rw [if_neg hfit]
      rfl
    · exact hgcount
    · intro i hi
      rw [hlen, show 2 * e.alg.blockLength - e.alg.blockLength = e.alg.blockLength by omega]
      exact hread i hi
    · refine shaped_compress ?_ u
      have h1 : ((g.compress u).setCurBlockLen 0).Shaped := by
        refine ⟨hgwf, ?_, length_apply _ _ _ _, apply_fits _ _ _ _, ?_⟩
        · show ∀ c ∈ g.block, c.1 < g.alg.blockLength
          rw [hgblock, hgalg]
          refine Memory.lt_of_mem_writeBytes (Memory.lt_of_mem_writeBytes h.2.1 _ _ ?_) _ _ ?_
          · simp only [List.length_cons, List.length_nil]; omega
          · rw [length_zeroBytes]; omega
        · show (BitVec.ofNat 8 0).toNat < g.alg.blockLength
          rw [hgalg]
          simp only [BitVec.toNat_ofNat, Nat.zero_mod]
          omega
      refine Engine.memWrite_shaped (Engine.memWrite_shaped h1 _ _ ?_) _ _ ?_
      · show (BitVec.ofNat 8 0).toNat + (zeroBytes (g.alg.blockLength - g.alg.lengthCounterWidth -
            (BitVec.ofNat 8 0).toNat)).length ≤ g.alg.blockLength
        rw [length_zeroBytes, hgalg]
        simp only [BitVec.toNat_ofNat, Nat.zero_mod]
        omega
      · show g.alg.blockLength - g.alg.lengthCounterWidth + (enc _ g.alg.lengthCounterWidth _).length ≤ g.alg.blockLength
        rw [length_enc, hgalg]
        omega

end Sys2Proof.Machine
end

