-- ==== Sys2Proof/Laws/Step.lean ====
section
/-! SUPPORT. What a meaning and a step can do, said once. -/

namespace Sys2Proof.Machine

/-- The state a well-framed command answers (R120, R155, R170, R205). -/
def answer (i : Instr) (s : State) : State :=
  match i with
  | .initSha1 => initSession .sha1 s
  | .initSha224 => initSession .sha224 s
  | .initSha256 => initSession .sha256 s
  | .initSha384 => initSession .sha384 s
  | .initSha512 => initSession .sha512 s
  | .initSha512_224 => initSession .sha512_224 s
  | .initSha512_256 => initSession .sha512_256 s
  | .initLegacy128 => initSession .legacy128 s
  | .update _ => updateSession s s.payload
  | .finish => finishSession s
  | .oneshot _ => oneshotSession s s.payload

@[simp] theorem answer_init (a : Alg) (s : State) : answer (Instr.init a) s = initSession a s := by
  cases a <;> rfl

@[simp] theorem payloadLength_init (a : Alg) : (Instr.init a).payloadLength = 0 := by
  cases a <;> rfl

/-- A meaning is framing, and then its answer. -/
theorem exec_eq_withPayload (i : Instr) (s : State) :
    exec i s = withPayload i.payloadLength s fun _ => answer i s := by
  cases i <;> rfl

/-- A meaning answers a next state exactly when the payload has the length the header gives. -/
theorem exec_eq_next {i : Instr} {s t : State} :
    exec i s = .next t ↔ s.payload.length = i.payloadLength ∧ answer i s = t := by
  rw [exec_eq_withPayload, withPayload_eq_next]

theorem exec_of_length {i : Instr} {s : State} (h : s.payload.length = i.payloadLength) :
    exec i s = .next (answer i s) := exec_eq_next.2 ⟨h, rfl⟩

/-- What an INIT answers: a new session where its transform unit is wired, else `E_NO_TRANSFORM` (R120). -/
theorem initSession_cases (a : Alg) (s : State) :
    (s.units.present a.family = true ∧ initSession a s = s.respondOk (Engine.fresh a) []) ∨
      (s.units.present a.family = false ∧ initSession a s = s.raise .noTransform) := by
  unfold initSession
  cases s.units.present a.family <;> simp

/-- What an UPDATE answers: an error, or the session with the payload absorbed (R155). -/
theorem updateSession_cases (s : State) (p : List Byte) :
    (∃ err, s.engine.absorbError p.length = some err ∧ updateSession s p = s.raise err) ∨
      (s.engine.absorbError p.length = none ∧ updateSession s p = s.respondOk (s.engine.absorb s.units p) []) := by
  unfold updateSession
  cases s.engine.absorbError p.length <;> simp

/-- What a FINISH answers: an error, or the finished session and its digest (R170). -/
theorem finishSession_cases (s : State) :
    (∃ err, s.engine.phaseError = some err ∧ finishSession s = s.raise err) ∨
      (s.engine.phaseError = none ∧
        finishSession s = s.respondOk (s.engine.finalize s.units).1 (s.engine.finalize s.units).2) := by
  unfold finishSession
  cases s.engine.phaseError <;> simp

/-- What a ONESHOT answers: an error, or the session with the payload absorbed and finished (R205). -/
theorem oneshotSession_cases (s : State) (p : List Byte) :
    (∃ err, s.engine.absorbError p.length = some err ∧ oneshotSession s p = s.raise err) ∨
      (s.engine.absorbError p.length = none ∧
        oneshotSession s p =
          s.respondOk ((s.engine.absorb s.units p).finalize s.units).1
            ((s.engine.absorb s.units p).finalize s.units).2) := by
  unfold oneshotSession
  cases s.engine.absorbError p.length <;> simp

/-- What a step can do: stay idle, reset the engine, or take a command that is answered, rejected as an unsupported
INIT, or rejected as illegal (R75, R97, R241). -/
theorem step_cases {s t : State} (h : step s = .next t) :
    (s.inbox = [] ∧ t = s) ∨ (∃ rest, s.inbox = .hardReset :: rest ∧ t = s.hardReset rest) ∨
      ∃ c rest, s.inbox = .command c :: rest ∧
        ((∃ i, decode c.header = .command i ∧ c.payload.length = i.payloadLength ∧ t = answer i (s.capture c rest)) ∨
          (∃ a, decode c.header = .initUnsupported a ∧ c.payload = [] ∧ t = (s.capture c rest).raise .badAlg) ∨
          (decode c.header = .illegal ∧ c.payload = [] ∧ t = (s.capture c rest).raise .badCmd)) := by
  unfold step at h
  split at h
  · exact .inl ⟨‹_›, (by simpa using h.symm)⟩
  · rename_i c rest hin
    refine .inr (.inr ⟨c, rest, hin, ?_⟩)
    unfold execDecoded at h
    split at h
    · rename_i i hd
      have := exec_eq_next.1 h
      exact .inl ⟨i, hd, this.1, this.2.symm⟩
    · rename_i a hd
      have := withPayload_eq_next.1 h
      exact .inr (.inl ⟨a, hd, List.length_eq_zero_iff.1 this.1, this.2.symm⟩)
    · rename_i hd
      have := withPayload_eq_next.1 h
      exact .inr (.inr ⟨hd, List.length_eq_zero_iff.1 this.1, this.2.symm⟩)
  · rename_i rest hin
    exact .inr (.inl ⟨rest, hin, (by simpa using h.symm)⟩)
  · simp at h

/-- A step on a command runs the decoded command on the state with the command taken. -/
theorem step_command {s : State} {c : Command} {rest : List HostAction} (h : s.inbox = .command c :: rest) :
    step s = execDecoded (decode c.header) (s.capture c rest) := by
  unfold step
  rw [h]

end Sys2Proof.Machine
end

