-- ==== Sys2Proof/Laws/Command.lean ====
section
/-! SUPPORT. What a step does with a command, said once: the response words, the four ways a command can end, and the words
the host sends. -/

namespace Sys2Proof.Machine

/-! ### Responses -/

/-- The response word of a rejection: the error number and the unchanged phase (R216). -/
theorem responseWord_err (err : ErrorCode) (p : Phase) :
    responseWord err.code p 0 = BitVec.ofNat 32 (err.code + 16 * p.code) := by
  cases err <;> cases p <;> rfl

theorem errorCode_ne_zero (err : ErrorCode) : err.code ≠ 0 := by
  cases err <;> decide

/-- A rejection is no success (R102). -/
theorem answeredOk_raise (err : ErrorCode) (s : State) : (s.raise err).answeredOk = false := by
  cases err <;> (simp only [State.answeredOk, State.raise]; cases s.engine.phase <;> rfl)

/-- `respond(OK, d)` is a success (R102). -/
theorem answeredOk_respondOk (e : Engine) (d : List Byte) (s : State) : (s.respondOk e d).answeredOk = true := by
  simp only [State.answeredOk, State.respondOk_response, responseWord, BitVec.toNat_ofNat]
  simp
  omega

/-- A digest is 16, 20, 32 or 64 bytes (R101). -/
theorem digestLength_cases (a : Alg) :
    a.stateWidth * a.wordSize = 16 ∨ a.stateWidth * a.wordSize = 20 ∨ a.stateWidth * a.wordSize = 32 ∨
      a.stateWidth * a.wordSize = 64 := by
  cases a <;> decide

/-! ### FINALIZE's frame -/

@[simp] theorem Engine.padAndCompress_alg (u : Units) (e : Engine) : (e.padAndCompress u).alg = e.alg := by
  unfold Engine.padAndCompress Engine.extraBlock
  simp only [Engine.compress_alg, Engine.writeLength, Engine.zeroFill, Engine.memWrite_alg]
  split <;> simp [Engine.appendMarker]

@[simp] theorem Engine.finalize_alg (u : Units) (e : Engine) : (e.finalize u).1.alg = e.alg := Engine.padAndCompress_alg u e

@[simp] theorem Engine.finalize_phase (u : Units) (e : Engine) : (e.finalize u).1.phase = .terminal := rfl

/-- FINALIZE returns the serialised state it leaves (R170, R195). -/
theorem Engine.finalize_digest (u : Units) (e : Engine) :
    (e.finalize u).2 = serialise e.alg (e.finalize u).1.state := by
  have h : (e.finalize u).2 = serialise (e.padAndCompress u).alg (e.padAndCompress u).state := rfl
  rw [h, Engine.padAndCompress_alg]
  rfl

@[simp] theorem Engine.length_finalize (u : Units) (e : Engine) :
    (e.finalize u).2.length = e.alg.stateWidth * e.alg.wordSize := by
  rw [Engine.finalize_digest, length_serialise]

/-! ### The ways a command ends -/

/-- A command is an INIT of a supported algorithm, an UPDATE, a FINISH or a ONESHOT (R96). -/
theorem instr_cases (i : Instr) :
    (∃ a, i = Instr.init a) ∨ (∃ n, i = .update n) ∨ i = .finish ∨ ∃ n, i = .oneshot n := by
  cases i with
  | initSha1 => exact .inl ⟨.sha1, rfl⟩
  | initSha224 => exact .inl ⟨.sha224, rfl⟩
  | initSha256 => exact .inl ⟨.sha256, rfl⟩
  | initSha384 => exact .inl ⟨.sha384, rfl⟩
  | initSha512 => exact .inl ⟨.sha512, rfl⟩
  | initSha512_224 => exact .inl ⟨.sha512_224, rfl⟩
  | initSha512_256 => exact .inl ⟨.sha512_256, rfl⟩
  | initLegacy128 => exact .inl ⟨.legacy128, rfl⟩
  | update n => exact .inr (.inl ⟨n, rfl⟩)
  | finish => exact .inr (.inr (.inl rfl))
  | oneshot n => exact .inr (.inr (.inr ⟨n, rfl⟩))

/-- The admission tests of UPDATE and ONESHOT, with the error of each (R155, R205, R218). -/
theorem absorbError_cases (e : Engine) (n : Nat) :
    (e.phase = .unbound ∧ e.absorbError n = some .notInit) ∨ (e.phase = .terminal ∧ e.absorbError n = some .misuse) ∨
      (e.phase = .active ∧ e.absorbError n = some .lenOverflow ∧
        2 ^ (8 * e.alg.lengthCounterWidth) ≤ (e.compressedLen.toNat + e.curBlockLen.toNat + n) * 8) ∨
      (e.phase = .active ∧ e.absorbError n = none ∧
        (e.compressedLen.toNat + e.curBlockLen.toNat + n) * 8 < 2 ^ (8 * e.alg.lengthCounterWidth)) := by
  unfold Engine.absorbError Engine.phaseError Engine.lengthOverflows
  cases e.phase <;> simp
  omega

/-- An admitted UPDATE (R155). -/
theorem exec_update_ok {s : State} {n : Nat} (ha : s.engine.phase = .active) (hp : s.payload.length = n)
    (hb : (s.engine.compressedLen.toNat + s.engine.curBlockLen.toNat + n) * 8 <
      2 ^ (8 * s.engine.alg.lengthCounterWidth)) :
    exec (.update n) s = .next (s.respondOk (s.engine.absorb s.units s.payload) []) := by
  have he : s.engine.absorbError s.payload.length = none := absorbError_eq_none.2 ⟨ha, by rwa [hp]⟩
  rw [exec_of_length hp]
  simp only [answer, updateSession, he]

/-- An admitted FINISH (R170). -/
theorem exec_finish_ok {s : State} (ha : s.engine.phase = .active) (hp : s.payload = []) :
    exec .finish s = .next (s.respondOk (s.engine.finalize s.units).1 (s.engine.finalize s.units).2) := by
  rw [exec_of_length (by rw [hp]; rfl)]
  simp only [answer, finishSession, phaseError_eq_none.2 ha]

/-- An admitted ONESHOT (R205). -/
theorem exec_oneshot_ok {s : State} {n : Nat} (ha : s.engine.phase = .active) (hp : s.payload.length = n)
    (hb : (s.engine.compressedLen.toNat + s.engine.curBlockLen.toNat + n) * 8 <
      2 ^ (8 * s.engine.alg.lengthCounterWidth)) :
    exec (.oneshot n) s =
      .next (s.respondOk ((s.engine.absorb s.units s.payload).finalize s.units).1
        ((s.engine.absorb s.units s.payload).finalize s.units).2) := by
  have he : s.engine.absorbError s.payload.length = none := absorbError_eq_none.2 ⟨ha, by rwa [hp]⟩
  rw [exec_of_length hp]
  simp only [answer, oneshotSession, he]

/-- An accepted INIT (R120). -/
theorem exec_init_ok {s : State} {a : Alg} (hp : s.payload = []) (hu : s.units.present a.family = true) :
    exec (Instr.init a) s = .next (s.respondOk (Engine.fresh a) []) := by
  rw [exec_of_length (by simp [hp]), answer_init]
  simp [initSession, hu]

/-- All that a step on a command can answer: a rejection, whose cause bounds the phase; a new session; an absorbed payload;
or a finished session, with the payload of a ONESHOT absorbed before. -/
theorem step_command_cases {s t : State} {c : Command} {rest : List HostAction} (hin : s.inbox = .command c :: rest)
    (h : step s = .next t) :
    (∃ err, t = (s.capture c rest).raise err ∧
      (err = .notInit → s.engine.phase = .unbound) ∧ (err = .misuse → s.engine.phase = .terminal) ∧
      (err = .lenOverflow → s.engine.phase = .active)) ∨
    (∃ a, decode c.header = .command (Instr.init a) ∧ s.units.present a.family = true ∧
      t = (s.capture c rest).respondOk (Engine.fresh a) []) ∨
    (∃ n, decode c.header = .command (.update n) ∧ s.engine.phase = .active ∧
      (s.engine.compressedLen.toNat + s.engine.curBlockLen.toNat + c.payload.length) * 8 <
        2 ^ (8 * s.engine.alg.lengthCounterWidth) ∧
      t = (s.capture c rest).respondOk (s.engine.absorb s.units c.payload) []) ∨
    (∃ i p, decode c.header = .command i ∧
      (i = .finish ∧ p = [] ∨ (∃ n, i = .oneshot n) ∧ p = c.payload ∧
        (s.engine.compressedLen.toNat + s.engine.curBlockLen.toNat + c.payload.length) * 8 <
          2 ^ (8 * s.engine.alg.lengthCounterWidth)) ∧
      s.engine.phase = .active ∧
      t = (s.capture c rest).respondOk ((s.engine.absorb s.units p).finalize s.units).1
        ((s.engine.absorb s.units p).finalize s.units).2) := by
  rcases step_cases h with ⟨h', _⟩ | ⟨_, h', _⟩ | ⟨c', rest', h', H⟩
  · rw [hin] at h'; cases h'
  · rw [hin] at h'; cases h'
  rw [hin] at h'
  injection h' with h1 h2
  injection h1 with h1
  subst h1 h2
  rcases H with ⟨i, hd, -, ht⟩ | ⟨a, -, -, ht⟩ | ⟨-, -, ht⟩
  · rcases instr_cases i with ⟨a, rfl⟩ | ⟨n, rfl⟩ | rfl | ⟨n, rfl⟩
    · rw [answer_init] at ht
      rcases initSession_cases a (s.capture c rest) with ⟨h1, h2⟩ | ⟨-, h2⟩
      · exact .inr (.inl ⟨a, hd, h1, ht.trans h2⟩)
      · exact .inl ⟨_, ht.trans h2, by simp⟩
    · simp only [answer, updateSession] at ht
      rcases absorbError_cases s.engine c.payload.length with ⟨h2, h1⟩ | ⟨h2, h1⟩ | ⟨h2, h1, -⟩ | ⟨h2, h1, h3⟩ <;>
        simp only [State.capture_engine, State.capture_payload, h1] at ht
      · exact .inl ⟨_, ht, by simp [h2]⟩
      · exact .inl ⟨_, ht, by simp [h2]⟩
      · exact .inl ⟨_, ht, by simp [h2]⟩
      · exact .inr (.inr (.inl ⟨n, hd, h2, h3, ht⟩))
    · rcases finishSession_cases (s.capture c rest) with ⟨err, h1, h2⟩ | ⟨h1, h2⟩
      · refine .inl ⟨_, ht.trans h2, ?_⟩
        unfold Engine.phaseError at h1
        split at h1 <;> cases h1 <;> (rename_i hq; simp [show s.engine.phase = _ from hq])
      · exact .inr (.inr (.inr ⟨_, [], hd, .inl ⟨rfl, rfl⟩, phaseError_eq_none.1 h1, ht.trans h2⟩))
    · simp only [answer, oneshotSession] at ht
      rcases absorbError_cases s.engine c.payload.length with ⟨h2, h1⟩ | ⟨h2, h1⟩ | ⟨h2, h1, -⟩ | ⟨h2, h1, h3⟩ <;>
        simp only [State.capture_engine, State.capture_payload, h1] at ht
      · exact .inl ⟨_, ht, by simp [h2]⟩
      · exact .inl ⟨_, ht, by simp [h2]⟩
      · exact .inl ⟨_, ht, by simp [h2]⟩
      · exact .inr (.inr (.inr ⟨_, c.payload, hd, .inr ⟨⟨n, rfl⟩, rfl, h3⟩, h2, ht⟩))
  · exact .inl ⟨_, ht, by simp⟩
  · exact .inl ⟨_, ht, by simp⟩

/-! ### The words the host sends -/

theorem decode_initCommand (a : Alg) : decode (initCommand a).header = .command (Instr.init a) := by
  cases a <;> decide

theorem decode_finishCommand : decode finishCommand.header = .command .finish := by decide

theorem decode_updateCommand {p : List Byte} (h : p.length < 2 ^ 24) :
    decode (updateCommand p).header = .command (.update p.length) := by
  obtain ⟨h1, h2, h3⟩ := fields_headerOf (opc := 2) (alg := 0) (len := p.length) (by decide) (by decide) h
  exact (decode_of_update h1 h2).trans (by rw [h3])

theorem decode_oneshotCommand {p : List Byte} (h : p.length < 2 ^ 24) :
    decode (oneshotCommand p).header = .command (.oneshot p.length) := by
  obtain ⟨h1, h2, h3⟩ := fields_headerOf (opc := 4) (alg := 0) (len := p.length) (by decide) (by decide) h
  exact (decode_of_oneshot h1 h2).trans (by rw [h3])

/-- A step on a command of the table runs its meaning on the state with the command taken (R75, R98). -/
theorem step_of_decode {s : State} {c : Command} {rest : List HostAction} {i : Instr}
    (hin : s.inbox = .command c :: rest) (hd : decode c.header = .command i) : step s = exec i (s.capture c rest) := by
  rw [step_command hin, hd]
  rfl

/-- A step on an accepted INIT (R120). -/
theorem step_init_ok {s : State} {a : Alg} {rest : List HostAction} (hin : s.inbox = .command (initCommand a) :: rest)
    (hu : s.units.present a.family = true) :
    step s = .next ((s.capture (initCommand a) rest).respondOk (Engine.fresh a) []) :=
  (step_of_decode hin (decode_initCommand a)).trans (exec_init_ok rfl hu)

/-- A step on an admitted FINISH (R170). -/
theorem step_finish_ok {s : State} {rest : List HostAction} (hin : s.inbox = .command finishCommand :: rest)
    (ha : s.engine.phase = .active) :
    step s = .next ((s.capture finishCommand rest).respondOk (s.engine.finalize s.units).1
      (s.engine.finalize s.units).2) :=
  (step_of_decode hin decode_finishCommand).trans (exec_finish_ok ha rfl)

/-! ### ABSORB on a session -/

/-- The length bound leaves room in the 128-bit counter (R160, R180). -/
theorem lt_of_lengthBound (a : Alg) {x : Nat} (h : x * 8 < 2 ^ (8 * a.lengthCounterWidth)) : x < 2 ^ 125 := by
  rcases blockLength_cases a with ⟨_, hl⟩ | ⟨_, hl⟩ <;> rw [hl] at h <;> omega

/-- ABSORB in two parts (R157). -/
theorem absorb_append {u : Units} {e : Engine} (h : e.curBlockLen.toNat < e.alg.blockLength) (p q : List Byte) :
    e.absorb u (p ++ q) = (e.absorb u p).absorb u q := by
  have h1 := Engine.foldl_absorbByte_lt u p h
  rw [Engine.absorb_eq_foldl h, List.foldl_append, Engine.absorb_eq_foldl h,
    Engine.absorb_eq_foldl (by rw [h1.2]; exact h1.1)]

/-- ABSORB counts every byte once, compressed or in the block (R27). -/
theorem absorb_count {u : Units} {e : Engine} (hs : e.Shaped) (p : List Byte)
    (hb : (e.compressedLen.toNat + e.curBlockLen.toNat + p.length) * 8 < 2 ^ (8 * e.alg.lengthCounterWidth)) :
    (e.absorb u p).compressedLen.toNat + (e.absorb u p).curBlockLen.toNat =
      e.compressedLen.toNat + e.curBlockLen.toNat + p.length := by
  have hA := Engine.absorbed_absorb (u := u) hs p (by have := lt_of_lengthBound _ hb; omega)
  have hdm := Nat.div_add_mod (e.block.readBytes 0 e.curBlockLen.toNat ++ p).length e.alg.blockLength
  have hl : (e.block.readBytes 0 e.curBlockLen.toNat ++ p).length = e.curBlockLen.toNat + p.length := by simp
  rw [Nat.mul_comm] at hdm
  rw [hA.count, hA.cur]
  omega

/-- No byte of `block` at or above `block_length` holds anything (R33). -/
theorem read_of_blockLength_le {e : Engine} (h : e.Shaped) {i : Nat} (hi : e.alg.blockLength ≤ i) :
    e.block.read i = 0 := by
  apply Memory.read_of_forall_ne
  intro c hc
  have := h.2.1 c hc
  omega

end Sys2Proof.Machine
end

