-- ==== Sys2Proof/Laws/PerInstr.lean ====
section
/-! SUPPORT. Statements made command by command: a command's own header word selects the row of its mnemonic
(spec/30_encoding.md R96). -/

namespace Sys2Proof.Laws.EncodesInRow

/-- The header word of a well-formed command selects the row of the command table that bears its mnemonic, and its `OPC`
field is below 5 (R92, R96). -/
def Statement (i : Instr) : Prop :=
  i.WellFormed → opcOf (encode i) < 5 ∧ ∃ r ∈ commandTable, r.mnemonic = i.mnemonic ∧ r.selects (encode i) = true

/-- The header word of an UPDATE or ONESHOT under the mask of its row. -/
theorem encode_and_lenMask {opc len : Nat} (ho : opc < 2 ^ 4) (hl : len < 2 ^ 24) :
    headerOf opc 0 len &&& (0xFF000000 : PortWord) = headerOf opc 0 0 := by
  have h := (and_lenMask_eq (h := headerOf opc 0 len) (top := opc * 16) (by omega)).2
    (by rw [toNat_headerOf ho (by decide) hl]; omega)
  have hn : opc * 16 * 2 ^ 24 = opc * 2 ^ 28 + 0 * 2 ^ 24 + 0 := by omega
  rw [h, headerOf, hn]

theorem initSha1 : Statement .initSha1 := fun _ => by decide

theorem initSha224 : Statement .initSha224 := fun _ => by decide

theorem initSha256 : Statement .initSha256 := fun _ => by decide

theorem initSha384 : Statement .initSha384 := fun _ => by decide

theorem initSha512 : Statement .initSha512 := fun _ => by decide

theorem initSha512_224 : Statement .initSha512_224 := fun _ => by decide

theorem initSha512_256 : Statement .initSha512_256 := fun _ => by decide

theorem initLegacy128 : Statement .initLegacy128 := fun _ => by decide

theorem update (len : Nat) : Statement (.update len) := by
  intro h
  have hl : len < 2 ^ 24 := by simpa [Instr.WellFormed, Instr.wellFormed, lenFits] using h
  refine ⟨?_, ⟨"UPDATE", 0x20000000, 0xFF000000⟩, by decide, rfl, ?_⟩
  · rw [encode, (fields_headerOf (by decide) (by decide) hl).1]
    decide
  · rw [Row.selects, encode, encode_and_lenMask (by decide) hl]
    decide

theorem finish : Statement .finish := fun _ => by decide

theorem oneshot (len : Nat) : Statement (.oneshot len) := by
  intro h
  have hl : len < 2 ^ 24 := by simpa [Instr.WellFormed, Instr.wellFormed, lenFits] using h
  refine ⟨?_, ⟨"ONESHOT", 0x40000000, 0xFF000000⟩, by decide, rfl, ?_⟩
  · rw [encode, (fields_headerOf (by decide) (by decide) hl).1]
    decide
  · rw [Row.selects, encode, encode_and_lenMask (by decide) hl]
    decide

end Sys2Proof.Laws.EncodesInRow
end

