-- ==== Sys2Proof/Tests/Slice0.lean ====
section
/-! SUPPORT. Tests: the well-formedness check, header words written out from spec/30_encoding.md R96, one or two steps per
command against spec/95_test_vectors.md, and one witness per statement with hypotheses. -/

namespace Sys2Proof.Tests

open Sys2Proof.Machine

/-! ### Well-formedness: `LEN` has 24 bits (R94) -/

theorem test_update_of_largest_payload_is_well_formed : Instr.wellFormed (.update 16777215) = true := by decide

theorem test_update_of_longer_payload_is_ill_formed : Instr.wellFormed (.update 16777216) = false := by decide

theorem test_oneshot_of_largest_payload_is_well_formed : Instr.wellFormed (.oneshot 16777215) = true := by decide

theorem test_oneshot_of_longer_payload_is_ill_formed : Instr.wellFormed (.oneshot 16777216) = false := by decide

/-! ### Header words, bit by bit (R96), and their neighbours (V10) -/

theorem test_decode_init_sha1 : decode 0b00010000000000000000000000000000 = .command .initSha1 := by decide

theorem test_decode_init_sha224 : decode 0b00010001000000000000000000000000 = .command .initSha224 := by decide

theorem test_decode_init_sha256 : decode 0b00010010000000000000000000000000 = .command .initSha256 := by decide

theorem test_decode_init_sha384 : decode 0b00010011000000000000000000000000 = .command .initSha384 := by decide

theorem test_decode_init_sha512 : decode 0b00010100000000000000000000000000 = .command .initSha512 := by decide

theorem test_decode_init_sha512_224 : decode 0b00010101000000000000000000000000 = .command .initSha512_224 := by decide

theorem test_decode_init_sha512_256 : decode 0b00010110000000000000000000000000 = .command .initSha512_256 := by decide

theorem test_decode_init_legacy128 : decode 0b00010111000000000000000000000000 = .command .initLegacy128 := by decide

theorem test_decode_update : decode 0b00100000000000000000000000000011 = .command (.update 3) := by decide

theorem test_decode_finish : decode 0b00110000000000000000000000000000 = .command .finish := by decide

theorem test_decode_oneshot : decode 0b01000000000000000000000000000011 = .command (.oneshot 3) := by decide

/-- V10, the words that are no command of the table. -/
theorem test_decode_rejects :
    decode 0x18000000 = .initUnsupported 8 ∧ decode 0x1F000000 = .initUnsupported 15 ∧
      [0x12000001, 0x18000001, 0x21000000, 0x30000001, 0x31000000, 0x4F000000, 0x00000000, 0x50000000, 0xFFFFFFFF].all
        (fun h => decode h == .illegal) = true := by decide

/-- V10, the ends of the `LEN` field. -/
theorem test_decode_lengths :
    decode 0x20000000 = .command (.update 0) ∧ decode 0x20FFFFFF = .command (.update 16777215) ∧
      decode 0x40000000 = .command (.oneshot 0) := by decide

theorem test_table_word_of_update : decodeTableWord 32 0x20000000 = some (.update 0) := by decide

theorem test_table_word_of_illegal : decodeTableWord 32 0x50000000 = none := by decide

/-! ### Small states -/

/-- Four units of one kind. -/
def all (unit : TransformUnit) : Units := ⟨unit, unit, unit, unit⟩

/-- A session of an algorithm, with `k` bytes `61` in its block. -/
def session (a : Alg) (k : Nat) (unit : TransformUnit := .toy) : State :=
  { State.reset with
    engine :=
      { Engine.fresh a with
        block := Memory.writeBytes [] 0 (List.replicate k 0x61)
        curBlockLen := BitVec.ofNat 8 k }
    units := all unit }

/-- A session, its payload captured. -/
def given (p : List Byte) (s : State) : State := { s with payload := p }

/-- The machine with the host's next actions. -/
def asked (acts : List HostAction) (s : State) : State := { s with inbox := acts }

/-- The machine, its session finished. -/
def finished (s : State) : State := { s with engine := s.engine.terminate }

/-- The response word, and the digest as a number. -/
def shown : Result → Option (PortWord × Nat)
  | .next t => t.response.map fun r => (r.word, dec r.digest .big)
  | .fault _ => none
  | .refused _ => none

/-- The registers after, but for the block. -/
def registers : Result → Option (Phase × Alg × List Word × Nat × Nat)
  | .next t =>
    some (t.engine.phase, t.engine.alg, t.engine.state, t.engine.curBlockLen.toNat, t.engine.compressedLen.toNat)
  | .fault _ => none
  | .refused _ => none

/-- The whole block after. -/
def blockAfter : Result → List Byte
  | .next t => t.engine.blockBytes
  | .fault _ => []
  | .refused _ => []

/-- The message `"abc"`. -/
def abc : List Byte := [0x61, 0x62, 0x63]

/-! ### INIT (R121 to R128, V12, V13, V15) -/

theorem test_init_sha1 : registers (execInitSha1 (session .sha512 3)) =
    some (.active, .sha1, [0x67452301, 0xefcdab89, 0x98badcfe, 0x10325476, 0xc3d2e1f0], 0, 0) := by decide +kernel

theorem test_init_sha224 : registers (execInitSha224 State.reset) =
    some (.active, .sha224, [0xc1059ed8, 0x367cd507, 0x3070dd17, 0xf70e5939, 0xffc00b31, 0x68581511, 0x64f98fa7,
      0xbefa4fa4], 0, 0) := by decide +kernel

theorem test_init_sha256 : registers (execInitSha256 State.reset) =
    some (.active, .sha256, [0x6a09e667, 0xbb67ae85, 0x3c6ef372, 0xa54ff53a, 0x510e527f, 0x9b05688c, 0x1f83d9ab,
      0x5be0cd19], 0, 0) := by decide +kernel

theorem test_init_sha384 : shown (execInitSha384 (session .sha1 3 .absent)) = some (0x00000013, 0) := by decide +kernel

/-- V13: nothing of the SHA1 session remains. -/
theorem test_init_sha512_in_session :
    blockAfter (execInitSha512 (session .sha1 3)) = List.replicate 128 0 := by decide +kernel

theorem test_init_sha512_224 : registers (execInitSha512_224 (finished (session .sha1 3))) =
    some (.active, .sha512_224, [0x8c3d37c819544da2, 0x73e1996689dcd4d6, 0x1dfab7ae32ff9c82, 0x679dd514582f9fcf,
      0x0f6d2b697bd44da8, 0x77e36f7304c48942, 0x3f9d85a86a1d36c8, 0x1112e6ad91d692a1], 0, 0) := by decide +kernel

/-- V15: the 512-bit family is not wired. -/
theorem test_init_sha512_256_missing :
    shown (execInitSha512_256 { State.reset with units := ⟨.supplied, .supplied, .absent, .supplied⟩ }) =
      some (0x00000003, 0) := by decide +kernel

theorem test_init_legacy128 : registers (execInitLegacy128 State.reset) =
    some (.active, .legacy128, [0x67452301, 0xefcdab89, 0x98badcfe, 0x10325476], 0, 0) := by decide +kernel

/-! ### UPDATE (V20, V21, V22, V39) -/

/-- V21 and V22, TOY: the second byte is the first of the next block. -/
theorem test_update_across_the_block : registers (execUpdate 2 (given [0x61, 0x61] (session .sha256 63))) =
    some (.active, .sha256, [0xab49c767, 0x28609346, 0xca5075d4, 0x4f51b09d, 0x72dbb683, 0xfbb58e31, 0x10022331,
      0xd7fd8460], 1, 64) := by decide +kernel

/-- V39: the length bound. -/
theorem test_update_at_the_bound :
    let s := session .sha256 0
    let far := { s with engine := { s.engine with compressedLen := BitVec.ofNat 128 (2 ^ 61 - 64) } }
    shown (execUpdate 64 (given (List.replicate 64 0) far)) = some (0x00000016, 0) ∧
      shown (execUpdate 63 (given (List.replicate 63 0) far)) = some (0x00000010, 0) := by decide +kernel

/-! ### FINISH (V31, P1) -/

/-- V31: the length field does not fit, and the last block is padding. -/
theorem test_finish_spills : blockAfter (execFinish (session .sha256 56)) =
    List.replicate 56 0 ++ [0, 0, 0, 0, 0, 0, 0x01, 0xc0] := by decide +kernel

/-- V1, P1: SHA-256 of the empty message, with the published round function. -/
theorem test_finish_empty_sha256 : shown (execFinish (session .sha256 0 .published)) =
    some (0x00002020, 0xe3b0c44298fc1c149afbf4c8996fb92427ae41e4649b934ca495991b7852b855) := by decide +kernel

/-! ### ONESHOT (V2, P4) -/

/-- V2: SHA-1 of `"abc"`, with the published round function. -/
theorem test_oneshot_abc_sha1 : shown (execOneshot 3 (given abc (session .sha1 0 .published))) =
    some (0x00001420, 0xa9993e364706816aba3e25717850c26c9cd0d89d) := by decide +kernel

/-- P4, TOY: the little-endian row. -/
theorem test_oneshot_abc_legacy128 : shown (execOneshot 3 (given abc (session .legacy128 0))) =
    some (0x00001020, 0xc78ce94f502683e9668616b0dfec7c16) := by decide +kernel

/-! ### CODEC and the step (V46, P5) -/

/-- V46: each word least significant byte first, word 0 first. -/
theorem test_codec_legacy128 :
    dec ({ (session .legacy128 0).engine with
      state := [0x98500190, 0xb04fd23c, 0x7d3f96d6, 0x727fe128] } : Engine).codec .big =
        0x900150983cd24fb0d6963f7d28e17f72 := by decide +kernel

/-- P5: rejected words in the three phases. -/
theorem test_step_rejects :
    shown (step (asked [.command ⟨0x20000001, [0x78]⟩] State.reset)) = some (0x00000004, 0) ∧
    shown (step (asked [.command ⟨0x31000000, []⟩] (session .sha224 0))) = some (0x00000015, 0) ∧
    shown (step (asked [.command ⟨0x1A000000, []⟩] (session .sha224 0))) = some (0x00000012, 0) ∧
    shown (step (asked [.command ⟨0x30000000, []⟩] (finished (session .sha224 0)))) = some (0x00000021, 0) := by
  decide +kernel

/-- The word placed for the next step is the one it runs (R96). -/
theorem test_withFetchWord :
    registers (step (State.reset.withFetchWord 32 0x17000000)) =
      some (.active, .legacy128, [0x67452301, 0xefcdab89, 0x98badcfe, 0x10325476], 0, 0) := by decide +kernel

/-! ### Witnesses: states and operands that meet the hypotheses of the statements -/

theorem session_inv (a : Alg) {k : Nat} (h : k < a.blockLength) : (session a k).Inv := by
  have hB := blockLength_cases a
  have hk : (BitVec.ofNat 8 k).toNat = k := toNat_ofNat_8 (by omega)
  refine ⟨⟨Memory.wf_writeBytes Memory.wf_nil _ _, Memory.lt_of_mem_writeBytes (by simp) _ _ ?_, length_initialState a,
    initialState_fits a, ?_⟩, ⟨fun _ => ⟨?_, ?_⟩, fun h' => nomatch h'⟩, fun _ => ?_⟩
  · simp only [List.length_replicate, Nat.zero_add]
    exact Nat.le_of_lt h
  · simp only [session, hk]
    exact h
  · simp [session]
  · have h0 : (session a k).engine.compressedLen.toNat + (session a k).engine.curBlockLen.toNat = k := by
      simp [session, hk]
    have : (2 : Nat) ^ 64 ≤ 2 ^ (8 * (session a k).engine.alg.lengthCounterWidth) :=
      Nat.pow_le_pow_right (by decide) (by simp only [session, Engine.fresh_alg]; omega)
    omega
  · cases a <;> rfl

theorem witness_DecodeOfEncode : Instr.WellFormed (.update 16777215) ∧ Instr.WellFormed .initLegacy128 := by decide

theorem witness_EncodeOfDecode : ∃ (h : PortWord) (i : Instr), decode h = .command i := ⟨0x20FFFFFF, _, rfl⟩

/-- One word for each clause, at the ends of the fields. -/
theorem witness_DecoderIsTotalFunctionOfFields :
    [(0x00000000, 0, 0, 0), (0x1FFFFFFF, 1, 15, 0xFFFFFF), (0x10000000, 1, 0, 0), (0x11000000, 1, 1, 0),
      (0x12000000, 1, 2, 0), (0x13000000, 1, 3, 0), (0x14000000, 1, 4, 0), (0x15000000, 1, 5, 0), (0x16000000, 1, 6, 0),
      (0x17000000, 1, 7, 0), (0x18000000, 1, 8, 0), (0x2FFFFFFF, 2, 15, 0xFFFFFF), (0x20FFFFFF, 2, 0, 0xFFFFFF),
      (0x30000001, 3, 0, 1), (0x31000000, 3, 1, 0), (0x30000000, 3, 0, 0), (0x41000000, 4, 1, 0), (0x40000000, 4, 0, 0),
      (0x50000000, 5, 0, 0), (0xFFFFFFFF, 15, 15, 0xFFFFFF)].all (fun (x : PortWord × Nat × Nat × Nat) =>
        x.2.1 < 16 && x.2.2.1 < 16 && x.2.2.2 < 2 ^ 24 &&
          x.1.toNat == x.2.1 * 2 ^ 28 + x.2.2.1 * 2 ^ 24 + x.2.2.2) = true := by decide

theorem witness_CommandTableSelectsRows :
    (∃ r ∈ commandTable, (0x17000000 : PortWord) &&& r.mask = r.pattern) ∧
    (∃ r ∈ commandTable, (0x20FFFFFF : PortWord) &&& r.mask = r.pattern ∧ r.mask = 0xFF000000) ∧
    decode 0x40000000 = .command (.oneshot 0) := by decide

/-- A word of each class of R97, in every state. -/
theorem witness_WordsOutsideTheTableAreRejected :
    (∀ r ∈ commandTable, (0x18000000 : PortWord) &&& r.mask ≠ r.pattern) ∧
    (∀ r ∈ commandTable, (0x1F000000 : PortWord) &&& r.mask ≠ r.pattern) ∧
    (∀ r ∈ commandTable, (0x18000001 : PortWord) &&& r.mask ≠ r.pattern) ∧
    (asked [.command ⟨0x18000000, []⟩] (session .sha256 3)).inbox = .command ⟨0x18000000, []⟩ :: [] := by decide

/-- The INIT statements: a state with every unit wired, and one with none. -/
theorem witness_BindsRow :
    [Family.sha1, .sha256, .sha512, .l128].all (fun f =>
      (session .sha256 3).units.present f && !(session .sha256 3 .absent).units.present f) = true ∧
    (session .sha256 3).payload = [] ∧ (session .sha256 3 .absent).payload = [] := by decide

theorem witness_RejectedInitChangesNothing :
    ∃ (s t : State) (h : PortWord) (rest : List HostAction), h.toNat / 2 ^ 28 = 1 ∧
      s.inbox = .command ⟨h, []⟩ :: rest ∧ step s = .next t ∧ t.answeredOk = false :=
  ⟨asked [.command ⟨0x19000000, []⟩] (session .sha256 3), _, 0x19000000, [], by decide, rfl, rfl, rfl⟩

theorem witness_AcceptedInitsLeaveEqualEngines :
    ∃ (s s' t t' : State), exec (Instr.init .sha512) s = .next t ∧ exec (Instr.init .sha512) s' = .next t' ∧
      t.answeredOk = true ∧ t'.answeredOk = true :=
  ⟨State.reset, finished (session .sha1 3), _, _, exec_init_ok rfl rfl, exec_init_ok rfl rfl, answeredOk_respondOk _ _ _,
    answeredOk_respondOk _ _ _⟩

/-- The default units supply every family's open transform, on buffers of the family's sizes. -/
theorem witness_SuppliedUnitsRunTheirFamilysTransform :
    Units.default.sha1 = .supplied ∧ Units.default.sha256 = .supplied ∧ Units.default.sha512 = .supplied ∧
      Units.default.l128 = .supplied ∧
      List.replicate 5 (0 : Word) = (Vector.replicate 5 (0 : BitVec 32)).toList.map (·.setWidth 64) ∧
      List.replicate 64 (0 : Byte) = (Vector.replicate 64 (0 : Byte)).toList := by decide

/-- An UPDATE that stays below a full block, one that fills it, and one that goes beyond. -/
theorem witness_UpdateClosedForm :
    (session .sha256 3).Inv ∧
    [60, 61, 62].all (fun n =>
      decide ((given (List.replicate n 0) (session .sha256 3)).engine.phase = .active ∧
        ((session .sha256 3).engine.compressedLen.toNat + (session .sha256 3).engine.curBlockLen.toNat + n) * 8 <
          2 ^ (8 * (session .sha256 3).engine.alg.lengthCounterWidth))) = true :=
  ⟨session_inv _ (by decide), by decide +kernel⟩

/-- Its clauses meet at 63 and 64 bytes in the block. -/
theorem witness_UpdateCompressesExactlyFullBlocks :
    (∃ t, exec (.update 60) (given (List.replicate 60 0) (session .sha256 3)) = .next t ∧ t.answeredOk = true) ∧
    (∃ t, exec (.update 61) (given (List.replicate 61 0) (session .sha256 3)) = .next t ∧ t.answeredOk = true) ∧
    (session .sha256 3).engine.curBlockLen.toNat + 60 < (session .sha256 3).engine.alg.blockLength ∧
    (session .sha256 3).engine.alg.blockLength ∣ (session .sha256 3).engine.curBlockLen.toNat + 61 :=
  ⟨⟨_, exec_update_ok rfl rfl (by decide +kernel), answeredOk_respondOk _ _ _⟩,
    ⟨_, exec_update_ok rfl rfl (by decide +kernel), answeredOk_respondOk _ _ _⟩, by decide, by decide⟩

/-- Every phase has a state that meets the invariant. -/
theorem witness_EmptyUpdateChangesNothing :
    (session .sha256 3).Inv ∧ (finished (session .sha256 3)).Inv ∧ ((session .sha256 3).hardReset []).Inv ∧
      (session .sha256 3).payload = [] ∧ (finished (session .sha256 3)).payload = [] ∧
      ((session .sha256 3).hardReset []).payload = [] :=
  have h : (session .sha256 3).Inv := session_inv _ (by decide)
  have ht : (finished (session .sha256 3)).Inv :=
    ⟨h.1, ⟨fun h' => (nomatch h'), fun _ => by decide +kernel⟩, fun _ => rfl⟩
  have hu : ((session .sha256 3).hardReset []).Inv :=
    ⟨⟨Memory.wf_nil, by simp, rfl, by simp, by decide +kernel⟩, ⟨by simp, by simp⟩, by simp⟩
  ⟨h, ht, hu, rfl, rfl, rfl⟩

/-- V39: a state at the bound. -/
def atTheBound : State :=
  { session .sha256 0 with
    engine := { (session .sha256 0).engine with compressedLen := BitVec.ofNat 128 (2 ^ 61 - 64) } }

theorem witness_LengthOverflowIsRejected :
    (given (List.replicate 64 0) atTheBound).engine.phase = .active ∧
      2 ^ (8 * atTheBound.engine.alg.lengthCounterWidth) ≤
        (atTheBound.engine.compressedLen.toNat + atTheBound.engine.curBlockLen.toNat + 64) * 8 := by decide +kernel

theorem witness_UpdatesCompose :
    (session .sha256 60).Inv ∧ (session .sha256 60).engine.phase = .active ∧
      ((session .sha256 60).engine.compressedLen.toNat + (session .sha256 60).engine.curBlockLen.toNat +
        ([1, 2] ++ [3, 4, 5] : List Byte).length) * 8 < 2 ^ (8 * (session .sha256 60).engine.alg.lengthCounterWidth) :=
  ⟨session_inv _ (by decide), rfl, by decide +kernel⟩

/-- The clauses of the closed form of FINISH meet at 55 and 56 bytes, and at 111 and 112. -/
theorem witness_FinishClosedForm :
    ∀ x ∈ [(Alg.sha256, 0), (.sha256, 55), (.sha256, 56), (.sha256, 63), (.legacy128, 55), (.legacy128, 56),
      (.sha512, 111), (.sha512, 112), (.sha512, 127)],
        (session x.1 x.2).Inv ∧ (session x.1 x.2).engine.phase = .active ∧ (session x.1 x.2).payload = [] ∧
          (session x.1 x.2).engine.curBlockLen.toNat = x.2 := by
  have h : ∀ x ∈ [(Alg.sha256, 0), (.sha256, 55), (.sha256, 56), (.sha256, 63), (.legacy128, 55), (.legacy128, 56),
      (.sha512, 111), (.sha512, 112), (.sha512, 127)],
        x.2 < x.1.blockLength ∧ (session x.1 x.2).engine.curBlockLen.toNat = x.2 := by decide
  exact fun x hx => ⟨session_inv _ (h x hx).1, rfl, rfl, (h x hx).2⟩

theorem witness_FinishAfterFullBlockAddsOnePaddingBlock :
    ∃ s t : State, s.Inv ∧ s.engine.phase = .active ∧ s.engine.curBlockLen = 0 ∧ exec .finish s = .next t :=
  ⟨session .sha256 0, _, session_inv _ (by decide), rfl, rfl, exec_finish_ok rfl rfl⟩

theorem witness_FinishOfEmptyMessage :
    State.reset.units.present Alg.sha256.family = true ∧
      (asked [.command (initCommand .sha256), .command finishCommand] State.reset).inbox =
        .command (initCommand .sha256) :: .command finishCommand :: [] := by decide

/-- One big-endian row and the little-endian one. -/
theorem witness_LengthFieldIsInOutputOrder :
    (∃ s t : State, s.Inv ∧ s.engine.phase = .active ∧ exec .finish s = .next t ∧ s.engine.alg = .legacy128) ∧
    (∃ s t : State, s.Inv ∧ s.engine.phase = .active ∧ exec .finish s = .next t ∧ s.engine.alg ≠ .legacy128) :=
  ⟨⟨session .legacy128 3, _, session_inv _ (by decide), rfl, exec_finish_ok rfl rfl, rfl⟩,
    ⟨session .sha512 3, _, session_inv _ (by decide), rfl, exec_finish_ok rfl rfl, by decide⟩⟩

theorem witness_BitLengthIsExact :
    ∃ s t : State, s.Inv ∧ s.engine.phase = .active ∧ exec .finish s = .next t :=
  ⟨session .legacy128 3, _, session_inv _ (by decide), rfl, exec_finish_ok rfl rfl⟩

theorem witness_OneshotIsUpdateThenFinish :
    ∃ s u t : State, exec (.update 3) s = .next u ∧ u.answeredOk = true ∧ exec .finish u = .next t :=
  ⟨given abc (session .sha1 0), _, _, exec_update_ok rfl rfl (by decide +kernel), answeredOk_respondOk _ _ _,
    exec_finish_ok (Engine.absorb_phase _ _ _) rfl⟩

theorem witness_OneshotClosedForm :
    (given abc (session .sha1 61)).Inv ∧ (given abc (session .sha1 61)).engine.phase = .active ∧
      (given abc (session .sha1 61)).payload.length = 3 ∧
      ((session .sha1 61).engine.compressedLen.toNat + (session .sha1 61).engine.curBlockLen.toNat + 3) * 8 <
        2 ^ (8 * (session .sha1 61).engine.alg.lengthCounterWidth) :=
  ⟨session_inv .sha1 (k := 61) (by decide), rfl, rfl, by decide +kernel⟩

theorem witness_OneshotIsAllOrNothing :
    (∃ u, exec (.update 3) (given abc State.reset) = .next u ∧ u.answeredOk = false) ∧
    (∃ u, exec (.update 3) (given abc (session .sha1 0)) = .next u ∧ u.answeredOk = true) :=
  ⟨⟨_, rfl, rfl⟩, ⟨_, exec_update_ok rfl rfl (by decide +kernel), answeredOk_respondOk _ _ _⟩⟩

theorem witness_EmptyOneshotIsFinish : (session .sha256 3).Inv ∧ (session .sha256 3).payload = [] :=
  ⟨session_inv _ (by decide), rfl⟩

theorem witness_AnySplitGivesTheOneshotDigest :
    ∃ (s : State) (chunks : List (List Byte)) (rest : List HostAction), s.Inv ∧ s.engine.phase = .active ∧
      chunks.flatten.length < 2 ^ 24 ∧
      (s.engine.compressedLen.toNat + s.engine.curBlockLen.toNat + chunks.flatten.length) * 8 <
        2 ^ (8 * s.engine.alg.lengthCounterWidth) ∧
      s.inbox = chunks.map (fun p => .command (updateCommand p)) ++ .command finishCommand :: rest :=
  ⟨asked [.command (updateCommand [0x61]), .command (updateCommand []), .command (updateCommand [0x62, 0x63]),
      .command finishCommand] (session .sha256 60),
    [[0x61], [], [0x62, 0x63]], [], session_inv .sha256 (k := 60) (by decide), rfl, by decide, by decide +kernel, rfl⟩

theorem witness_SessionDigestIsMerkleDamgard :
    State.reset.units.present Alg.sha256.family = true ∧ abc.length < 2 ^ 24 ∧
      (asked [.command (initCommand .sha256), .command (oneshotCommand abc)] State.reset).inbox =
        .command (initCommand .sha256) :: .command (oneshotCommand abc) :: [] := by decide

/-- FINISH, UPDATE and ONESHOT in the TERMINAL phase. -/
theorem witness_MisuseAfterFinish :
    (finished (session .sha256 3)).engine.phase = .terminal ∧
      (finished (session .sha256 3)).payload.length = Instr.finish.payloadLength ∧
      (finished (session .sha256 3)).payload.length = (Instr.update 0).payloadLength ∧
      (given abc (finished (session .sha256 3))).payload.length = (Instr.oneshot 3).payloadLength := by decide

/-- FINISH, UPDATE and ONESHOT in the UNBOUND phase. -/
theorem witness_NotInitBeforeInit :
    State.reset.engine.phase = .unbound ∧ State.reset.payload.length = Instr.finish.payloadLength ∧
      State.reset.payload.length = (Instr.update 0).payloadLength ∧
      (given abc State.reset).payload.length = (Instr.oneshot 3).payloadLength := by decide

theorem witness_IllegalWordIsRejected :
    decode 0x12000001 = .illegal ∧
      (asked [.command ⟨0x12000001, []⟩] (session .sha256 3)).inbox = .command ⟨0x12000001, []⟩ :: [] := by decide

/-- The ends of the range 8 to 15. -/
theorem witness_UnsupportedAlgorithmIsRejected :
    (asked [.command ⟨headerOf 1 8 0, []⟩] (session .sha256 3)).inbox = .command ⟨headerOf 1 8 0, []⟩ :: [] ∧
      (asked [.command ⟨headerOf 1 15 0, []⟩] (session .sha256 3)).inbox = .command ⟨headerOf 1 15 0, []⟩ :: [] ∧
      8 ≤ 8 ∧ 15 < 16 := by decide

theorem witness_MissingTransformIsRejected :
    (session .sha1 3 .absent).units.present Alg.sha256.family = false ∧ State.reset.units = Units.default ∧
      (asked [.command (initCommand .sha256)] State.reset).inbox = .command (initCommand .sha256) :: [] := by decide

/-- A malformed header, an unsupported algorithm, and a payload that would also overflow the length field, in the phases
whose test comes first. -/
theorem witness_ErrorPriority :
    decode 0x18000001 = .illegal ∧ 8 ≤ 9 ∧ 9 < 16 ∧
      (given (List.replicate 64 0) (finished atTheBound)).engine.phase ≠ .active ∧
      2 ^ (8 * (finished atTheBound).engine.alg.lengthCounterWidth) ≤
        ((finished atTheBound).engine.compressedLen.toNat + (finished atTheBound).engine.curBlockLen.toNat + 64) * 8 := by
  decide +kernel

theorem witness_RejectionIsPrecise :
    ∃ (s t : State) (c : Command) (rest : List HostAction), s.inbox = .command c :: rest ∧ step s = .next t ∧
      t.answeredOk = false :=
  ⟨asked [.command finishCommand] State.reset, _, finishCommand, [], rfl, rfl, rfl⟩

/-- A digest, a success without one, and an error (LifecycleTable, ResponseFields, ResponseWordsAreListed). -/
theorem witness_step_on_a_command :
    (∃ t, step (asked [.command finishCommand] (session .sha256 3)) = .next t ∧ t.engine.phase = .terminal) ∧
    (∃ t, step (asked [.command (updateCommand [])] (session .sha256 3)) = .next t ∧ t.engine.phase = .active) ∧
    (∃ t, step (asked [.command finishCommand] State.reset) = .next t ∧ t.engine.phase = .unbound) :=
  ⟨⟨_, step_finish_ok rfl rfl, rfl⟩, ⟨_, rfl, rfl⟩, ⟨_, rfl, rfl⟩⟩

theorem witness_ResetIsUnbound :
    (asked [.hardReset] (session .sha256 3)).inbox = .hardReset :: [] ∧
    ∃ (s t : State) (c : Command) (rest : List HostAction), s.engine.phase = .unbound ∧ s.inbox = .command c :: rest ∧
      step s = .next t ∧ t.answeredOk = true :=
  ⟨rfl, asked [.command (initCommand .sha256)] State.reset, _, initCommand .sha256, [], rfl, rfl,
    step_init_ok (a := .sha256) rfl rfl, answeredOk_respondOk _ _ _⟩

/-- A step that writes registers, from a state that meets the invariant. -/
theorem witness_StepKeepsInvariant :
    ∃ s t : State, s.Inv ∧ step s = .next t ∧ t.engine ≠ s.engine :=
  ⟨asked [.command (initCommand .sha512)] (session .sha256 3), _, session_inv .sha256 (k := 3) (by decide),
    step_init_ok (a := .sha512) rfl rfl, by decide +kernel⟩

theorem witness_StepRunsTheDecodedCommand :
    (asked [.command (oneshotCommand abc)] (session .sha256 3)).inbox = .command (oneshotCommand abc) :: [] ∧
      decode (oneshotCommand abc).header = .command (.oneshot 3) := by decide

theorem witness_IdleStepHoldsTheState : (session .sha256 3).inbox = [] := rfl

theorem witness_OverlappingCommandsAreRefused :
    (asked [.overlapping [finishCommand, finishCommand]] (session .sha256 3)).inbox =
      .overlapping [finishCommand, finishCommand] :: [] := rfl

/-- An UPDATE one byte short, a ONESHOT one byte long, and a FINISH with a payload. -/
theorem witness_MisframedTransactionsAreRefused :
    abc.length ≠ (0x20000004 : PortWord).toNat % 2 ^ 24 ∧ (0x20000004 : PortWord).toNat / 2 ^ 24 = 0x20 ∧
    abc.length ≠ (0x40000002 : PortWord).toNat % 2 ^ 24 ∧ (0x40000002 : PortWord).toNat / 2 ^ 24 = 0x40 ∧
    abc.length ≠ 0 ∧ (0x30000000 : PortWord).toNat / 2 ^ 24 = 0x30 := by decide

/-- The three ways `phase` changes, and a change of `alg` (PhaseTransitions, AlgIsWrittenOnlyByInit,
StepKeepsTransformUnits). -/
theorem witness_PhaseTransitions :
    (∃ t, step (asked [.hardReset] (session .sha256 3)) = .next t ∧ t.engine.phase = .unbound) ∧
    (∃ t, step (asked [.command (initCommand .sha512)] (finished (session .sha256 3))) = .next t ∧
      t.engine.phase = .active ∧ t.engine.alg ≠ .sha256) ∧
    (∃ t, step (asked [.command finishCommand] (session .sha256 3)) = .next t ∧ t.engine.phase = .terminal) :=
  ⟨⟨_, rfl, rfl⟩,
    ⟨_, step_init_ok (a := .sha512) rfl rfl, rfl, by decide⟩,
    ⟨_, step_finish_ok rfl rfl, rfl⟩⟩

/-- Two machines that differ in a stale byte. -/
theorem witness_UnreadStateNeverShows :
    ∃ s s' t : State, s.Inv ∧ s'.Inv ∧ s.Alike s' ∧ s ≠ s' ∧ step s = .next t := by
  have h : (asked [.command finishCommand] (session .sha256 3)).Inv := session_inv .sha256 (k := 3) (by decide)
  refine ⟨asked [.command finishCommand] (session .sha256 3),
    { asked [.command finishCommand] (session .sha256 3) with
      engine := (session .sha256 3).engine.memWrite 5 [0xff] },
    _, h, ⟨Engine.memWrite_shaped h.1 5 [0xff] (by decide), h.2.1, h.2.2⟩,
    ⟨⟨rfl, fun _ => ⟨rfl, rfl, rfl, rfl, ?_⟩⟩, rfl, rfl, rfl, rfl⟩, by decide +kernel,
    step_finish_ok rfl rfl⟩
  decide +kernel

end Sys2Proof.Tests
end

section
/-! The dispatch to the transform families: a supplied unit on buffers of its family's sizes
(spec/41_compress.md R141, R142). -/

namespace Sys2Proof.Machine

theorem map_setWidth_wordsOut {w n : Nat} (hw : w ≤ 64) (v : Vector (BitVec w) n) :
    (wordsOut v).map (·.setWidth w) = v.toList := by
  have hround : ∀ x : BitVec w, (x.setWidth 64).setWidth w = x := fun x => by
    rw [BitVec.setWidth_setWidth_of_le _ hw, BitVec.setWidth_eq]
  simp [wordsOut, Function.comp_def, hround]

theorem wordsOut_64 {n : Nat} (v : Vector Word n) : wordsOut v = v.toList := by simp [wordsOut]

/-- The state buffer gives a transform back the words that a transform left in it. -/
theorem wordsIn_wordsOut {w n : Nat} (hw : w ≤ 64) (v : Vector (BitVec w) n) : wordsIn w n (wordsOut v) = v := by
  ext1 i hi
  have hi' : i < (wordsOut v).length := by simpa [wordsOut] using hi
  calc (wordsIn w n (wordsOut v))[i]
      = ((wordsOut v)[i]).setWidth w := by simp [wordsIn, List.getD_eq_getElem?_getD, hi']
    _ = ((wordsOut v).map (·.setWidth w))[i]'(by simpa using hi') := by simp
    _ = v[i] := by simp [map_setWidth_wordsOut hw]

theorem bytesIn_toList {b : Nat} (v : Vector Byte b) : bytesIn b v.toList = v := by
  ext1 i hi
  simp [bytesIn]

/-- On buffers of its own sizes a transform is applied to just their words and bytes (R141). -/
theorem onBuffers_wordsOut {w n b : Nat} (hw : w ≤ 64) (t : Transform w n b) (v : Vector (BitVec w) n)
    (blk : Vector Byte b) : Transform.onBuffers t (wordsOut v) blk.toList = wordsOut (t v blk) := by
  rw [Transform.onBuffers, wordsIn_wordsOut hw, bytesIn_toList]

theorem map_setWidth_onBuffers {w n b : Nat} (hw : w ≤ 64) (t : Transform w n b) (v : Vector (BitVec w) n)
    (blk : Vector Byte b) :
    (Transform.onBuffers t (wordsOut v) blk.toList).map (·.setWidth w) = (t v blk).toList := by
  rw [onBuffers_wordsOut hw, map_setWidth_wordsOut hw]

@[simp] theorem TransformUnit.transform_supplied {w n b : Nat} (uninterpreted published : Transform w n b) :
    TransformUnit.supplied.transform uninterpreted published = uninterpreted := rfl

/-- Settles O18: each family's arm of the dispatch is its supplied transform on the engine's buffers. -/
theorem suppliedUnitsRunTheirFamilysTransform : Obligations.SuppliedUnitsRunTheirFamilysTransform := by
  intro u st blk
  refine ⟨?sha1, ?sha256, ?sha512, ?l128⟩
  case sha1 | sha256 | l128 =>
    rintro v b hu rfl rfl
    rw [Units.apply, hu, TransformUnit.transform_supplied]
    exact map_setWidth_onBuffers (by decide) _ v b
  case sha512 =>
    rintro v b hu rfl rfl
    rw [Units.apply, hu, TransformUnit.transform_supplied, ← wordsOut_64 v, onBuffers_wordsOut (Nat.le_refl 64),
      wordsOut_64]

end Sys2Proof.Machine
end

section
/-! Machines that the host cannot tell apart (`State.Alike`): every operation and every step keeps them so, and they
answer alike (spec/10_state.md R28, R35, R36). -/

namespace Sys2Proof.Machine

section
variable {e f : Engine} {s s' : State}

/-! ### Engines that are alike -/

theorem Engine.alike_refl (e : Engine) : e.Alike e := ⟨rfl, fun _ => ⟨rfl, rfl, rfl, rfl, fun _ _ => rfl⟩⟩

/-- Outside a session the phase is all that counts (R35, R36). -/
theorem Engine.alike_of_terminal (he : e.phase = .terminal) (hf : f.phase = .terminal) : e.Alike f :=
  ⟨he.trans hf.symm, fun ha => absurd (he.symm.trans ha) (by decide)⟩

/-- Alike sessions hold the same bytes below the write pointer (R28). -/
theorem Engine.Alike.validBytes_eq (h : e.Alike f) (ha : e.phase = .active) :
    e.block.readBytes 0 e.curBlockLen.toNat = f.block.readBytes 0 f.curBlockLen.toNat := by
  obtain ⟨-, -, hcur, -, hbytes⟩ := h.2 ha
  rw [← hcur]
  exact List.map_congr_left fun i hi => by simpa using hbytes i (List.mem_range.1 hi)

theorem Engine.Alike.phaseError_eq (h : e.Alike f) : e.phaseError = f.phaseError := by
  rw [Engine.phaseError, Engine.phaseError, h.1]

theorem Engine.Alike.lengthOverflows_eq (h : e.Alike f) (ha : e.phase = .active) (n : Nat) :
    e.lengthOverflows n = f.lengthOverflows n := by
  obtain ⟨halg, -, hcur, hcount, -⟩ := h.2 ha
  rw [Engine.lengthOverflows, Engine.lengthOverflows, halg, hcur, hcount]

/-- The admission tests read the counters only in a session (R218). -/
theorem Engine.Alike.absorbError_eq (h : e.Alike f) (n : Nat) : e.absorbError n = f.absorbError n := by
  rw [Engine.absorbError, Engine.absorbError, ← h.phaseError_eq]
  cases hp : e.phaseError with
  | some err => rfl
  | none => rw [h.lengthOverflows_eq (phaseError_eq_none.1 hp)]

/-- ABSORB reads only the valid bytes of the block: by its closed form both engines absorb the same byte sequence from the
same state (R161). -/
theorem Engine.Alike.absorb (h : e.Alike f) (he : e.Shaped) (hf : f.Shaped) (ha : e.phase = .active) (u : Units)
    {p : List Byte} (hbound : e.compressedLen.toNat + e.curBlockLen.toNat + p.length < 2 ^ 128) :
    (e.absorb u p).Alike (f.absorb u p) := by
  obtain ⟨halg, hstate, hcur, hcount, -⟩ := h.2 ha
  have hE := Engine.absorbed_absorb (u := u) he p hbound
  have hF := Engine.absorbed_absorb (u := u) hf p (by rwa [← hcur, ← hcount])
  rw [← h.validBytes_eq ha] at hF
  refine ⟨by simpa using h.1, fun _ => ⟨by simpa using halg, ?_, ?_, ?_, fun i hi => ?_⟩⟩
  · rw [hE.state, hF.state, halg, hstate]
  · exact BitVec.eq_of_toNat_eq (by rw [hE.cur, hF.cur, halg])
  · exact BitVec.eq_of_toNat_eq (by rw [hE.count, hF.count, halg, hcount])
  · rw [hE.cur] at hi
    rw [hE.fresh i hi, hF.fresh i (by rwa [← halg]), halg]

theorem Engine.Alike.lastBytes_eq (h : e.Alike f) (ha : e.phase = .active) : e.lastBytes = f.lastBytes := by
  obtain ⟨halg, -, hcur, hcount, -⟩ := h.2 ha
  rw [Engine.lastBytes, Engine.lastBytes, h.validBytes_eq ha, halg, hcur, hcount]

/-- FINALIZE overwrites every stale byte before it compresses, so the digest does not show one (R178). -/
theorem Engine.Alike.finalize_digest_eq (h : e.Alike f) (he : e.Shaped) (hf : f.Shaped) (ha : e.phase = .active)
    (u : Units) (hbound : e.compressedLen.toNat + e.curBlockLen.toNat < 2 ^ 128) :
    (e.finalize u).2 = (f.finalize u).2 := by
  obtain ⟨halg, hstate, hcur, hcount, -⟩ := h.2 ha
  have hE := Engine.padded_padAndCompress (u := u) he hbound
  have hF := Engine.padded_padAndCompress (u := u) hf (by rwa [← hcur, ← hcount])
  have hlast : (e.padAndCompress u).state = (f.padAndCompress u).state := by
    rw [hE.state, hF.state, h.lastBytes_eq ha, halg, hstate]
  rw [Engine.finalize_digest, Engine.finalize_digest, halg]
  exact congrArg (serialise f.alg) hlast

theorem Engine.finalize_alike (e f : Engine) (u : Units) : (e.finalize u).1.Alike (f.finalize u).1 :=
  Engine.alike_of_terminal (Engine.finalize_phase u e) (Engine.finalize_phase u f)

/-! ### Machines that are alike -/

theorem State.Alike.capture (h : s.Alike s') (c : Command) (rest : List HostAction) :
    (s.capture c rest).Alike (s'.capture c rest) := by
  obtain ⟨hengine, hunits, -, -, hresponse⟩ := h
  exact ⟨hengine, hunits, rfl, rfl, hresponse⟩

theorem State.Alike.hardReset (h : s.Alike s') (rest : List HostAction) :
    (s.hardReset rest).Alike (s'.hardReset rest) := by
  obtain ⟨-, hunits, -, -, -⟩ := h
  exact ⟨Engine.alike_refl _, hunits, rfl, rfl, rfl⟩

/-- A rejection shows the phase and the error, and nothing else (R216). -/
theorem State.Alike.raise (h : s.Alike s') (err : ErrorCode) : (s.raise err).Alike (s'.raise err) := by
  obtain ⟨hengine, hunits, hinbox, -, -⟩ := h
  exact ⟨hengine, hunits, hinbox, rfl, by rw [State.raise_response, State.raise_response, hengine.1]⟩

/-- A success shows the phase and the digest, and nothing else (R100, R101). -/
theorem State.Alike.respondOk (h : s.Alike s') (hef : e.Alike f) (d : List Byte) :
    (s.respondOk e d).Alike (s'.respondOk f d) := by
  obtain ⟨-, hunits, hinbox, -, -⟩ := h
  exact ⟨hef, hunits, hinbox, rfl, by rw [State.respondOk_response, State.respondOk_response, hef.1]⟩

/-! ### Commands -/

/-- An INIT reads only which units are wired (R120). -/
theorem State.Alike.initSession (h : s.Alike s') (a : Alg) : (initSession a s).Alike (initSession a s') := by
  have hunits : s.units = s'.units := h.2.1
  rw [Machine.initSession, Machine.initSession, ← hunits]
  split
  · exact h.respondOk (Engine.alike_refl _) []
  · exact h.raise .noTransform

/-- UPDATE (R155). -/
theorem State.Alike.updateSession (h : s.Alike s') (hs : s.engine.Shaped) (hs' : s'.engine.Shaped) (p : List Byte) :
    (updateSession s p).Alike (updateSession s' p) := by
  have hengine : s.engine.Alike s'.engine := h.1
  have hunits : s.units = s'.units := h.2.1
  rw [Machine.updateSession, Machine.updateSession, ← hengine.absorbError_eq, ← hunits]
  cases herr : s.engine.absorbError p.length with
  | some err => exact h.raise err
  | none =>
    obtain ⟨ha, hbound⟩ := absorbError_eq_none.1 herr
    have := lt_of_lengthBound _ hbound
    exact h.respondOk (hengine.absorb hs hs' ha _ (by omega)) []

/-- A finished session, from engines in the same session. -/
theorem State.Alike.respondOk_finalize (h : s.Alike s') (hef : e.Alike f) (he : e.Shaped) (hf : f.Shaped)
    (ha : e.phase = .active) (u : Units) (hbound : e.compressedLen.toNat + e.curBlockLen.toNat < 2 ^ 128) :
    (s.respondOk (e.finalize u).1 (e.finalize u).2).Alike (s'.respondOk (f.finalize u).1 (f.finalize u).2) := by
  rw [hef.finalize_digest_eq he hf ha u hbound]
  exact h.respondOk (Engine.finalize_alike e f u) _

/-- FINISH (R170). The invariant bounds the message length. -/
theorem State.Alike.finishSession (h : s.Alike s') (hs : s.Inv) (hs' : s'.engine.Shaped) :
    (finishSession s).Alike (finishSession s') := by
  have hengine : s.engine.Alike s'.engine := h.1
  have hunits : s.units = s'.units := h.2.1
  obtain ⟨hshaped, ⟨hcounted, -⟩, -⟩ := hs
  rw [Machine.finishSession, Machine.finishSession, ← hengine.phaseError_eq, ← hunits]
  cases herr : s.engine.phaseError with
  | some err => exact h.raise err
  | none =>
    have ha := phaseError_eq_none.1 herr
    have := lt_of_lengthBound _ (hcounted ha).2
    exact h.respondOk_finalize hengine hshaped hs' ha _ (by omega)

/-- ONESHOT: an ABSORB and a FINALIZE (R205). -/
theorem State.Alike.oneshotSession (h : s.Alike s') (hs : s.engine.Shaped) (hs' : s'.engine.Shaped) (p : List Byte) :
    (oneshotSession s p).Alike (oneshotSession s' p) := by
  have hengine : s.engine.Alike s'.engine := h.1
  have hunits : s.units = s'.units := h.2.1
  rw [Machine.oneshotSession, Machine.oneshotSession, ← hengine.absorbError_eq, ← hunits]
  cases herr : s.engine.absorbError p.length with
  | some err => exact h.raise err
  | none =>
    obtain ⟨ha, hbits⟩ := absorbError_eq_none.1 herr
    obtain ⟨-, -, hcur, hcount, -⟩ := hengine.2 ha
    have hbound := lt_of_lengthBound _ hbits
    refine h.respondOk_finalize (hengine.absorb hs hs' ha _ (by omega)) ?_ ?_ (by simpa using ha) _ ?_
    · exact (Engine.absorbed_absorb hs p (by omega)).shaped
    · exact (Engine.absorbed_absorb hs' p (by rw [← hcur, ← hcount]; omega)).shaped
    · rw [absorb_count hs p hbits]
      omega

/-- Every command of the table keeps machines alike, and its response does not tell them apart. -/
theorem State.Alike.answer (h : s.Alike s') (hs : s.Inv) (hs' : s'.Inv) (i : Instr) :
    (answer i s).Alike (answer i s') := by
  obtain ⟨-, -, -, hpayload, -⟩ := id h
  rcases instr_cases i with ⟨a, rfl⟩ | ⟨n, rfl⟩ | rfl | ⟨n, rfl⟩
  · simpa using h.initSession a
  · simpa [Machine.answer, hpayload] using h.updateSession hs.1 hs'.1 s'.payload
  · simpa [Machine.answer] using h.finishSession hs hs'.1
  · simpa [Machine.answer, hpayload] using h.oneshotSession hs.1 hs'.1 s'.payload

/-- An unsupported INIT is rejected with `E_BAD_ALG` (R212). -/
theorem execDecoded_initUnsupported (h : s.payload = []) (a : Nat) :
    execDecoded (.initUnsupported a) s = .next (s.raise .badAlg) :=
  withPayload_of_length (f := fun _ => s.raise .badAlg) (by rw [h, List.length_nil])

/-- An illegal word is rejected with `E_BAD_CMD` (R215). -/
theorem execDecoded_illegal (h : s.payload = []) : execDecoded .illegal s = .next (s.raise .badCmd) :=
  withPayload_of_length (f := fun _ => s.raise .badCmd) (by rw [h, List.length_nil])

end

/-- Settles O56: what the first machine's step did, by `step_cases`, the second's does too. -/
theorem unreadStateNeverShows : Obligations.UnreadStateNeverShows := by
  intro s s' t hs hs' h hstep
  obtain ⟨-, -, hinbox, -, -⟩ := id h
  rcases step_cases hstep with ⟨hin, rfl⟩ | ⟨rest, hin, rfl⟩ | ⟨c, rest, hin, hcommand⟩ <;> rw [hinbox] at hin
  · exact ⟨s', by rw [step, hin], h⟩
  · exact ⟨s'.hardReset rest, by rw [step, hin], h.hardReset rest⟩
  · rw [step_command hin]
    have hcap := h.capture c rest
    rcases hcommand with ⟨i, hd, hlen, rfl⟩ | ⟨a, hd, hempty, rfl⟩ | ⟨hd, hempty, rfl⟩ <;> rw [hd]
    · exact ⟨_, exec_of_length hlen, hcap.answer hs hs' i⟩
    · exact ⟨_, execDecoded_initUnsupported hempty a, hcap.raise .badAlg⟩
    · exact ⟨_, execDecoded_illegal hempty, hcap.raise .badCmd⟩

end Sys2Proof.Machine
end

section
/-! The invariant of the machine: it holds at reset, and every step keeps it (spec/10_state.md R26, R27, R33, R35;
spec/41_compress.md R142). -/

namespace Sys2Proof.Machine

section
variable {e : Engine} {s : State} {u : Units} {p : List Byte}

/-! ### The registers that an operation leaves -/

theorem Engine.shaped_reset : Engine.reset.Shaped :=
  ⟨Memory.wf_nil, by simp, rfl, by simp, by decide⟩

/-- Before INIT the counters are not yet bounded (R27, R35). -/
theorem Engine.counted_of_unbound (h : e.phase = .unbound) : e.Counted := by
  simp [Engine.Counted, h]

/-- INIT fills the block with zeros, loads the initial state and clears the pointer (R34, R120). -/
theorem Engine.shaped_fresh (a : Alg) : (Engine.fresh a).Shaped :=
  ⟨Memory.wf_writeBytes Memory.wf_nil _ _, Memory.lt_of_mem_writeBytes (by simp) _ _ (by simp), length_initialState a,
    initialState_fits a, blockLength_pos a⟩

theorem Engine.counted_fresh (a : Alg) : (Engine.fresh a).Counted := by
  simp [Engine.Counted]

/-- The length bound leaves room in the 128-bit counter for every byte absorbed (R160). -/
theorem Engine.shaped_absorb (hs : e.Shaped)
    (hb : (e.compressedLen.toNat + e.curBlockLen.toNat + p.length) * 8 < 2 ^ (8 * e.alg.lengthCounterWidth)) :
    (e.absorb u p).Shaped := by
  have := lt_of_lengthBound _ hb
  exact (Engine.absorbed_absorb hs p (by omega)).shaped

/-- ABSORB counts whole blocks, and no byte twice (R27, R161). -/
theorem Engine.counted_absorb (hs : e.Shaped) (hc : e.Counted) (ha : e.phase = .active)
    (hb : (e.compressedLen.toNat + e.curBlockLen.toNat + p.length) * 8 < 2 ^ (8 * e.alg.lengthCounterWidth)) :
    (e.absorb u p).Counted := by
  obtain ⟨hwhole, -⟩ := hc.1 ha
  have hroom := lt_of_lengthBound _ hb
  have hcount := (Engine.absorbed_absorb (u := u) hs p (by omega)).count
  refine ⟨fun _ => ⟨?_, ?_⟩, fun ht => ?_⟩
  · rw [hcount, Engine.absorb_alg, Nat.add_mul_mod_self_right, hwhole]
  · rwa [absorb_count hs p hb, Engine.absorb_alg]
  · rw [Engine.absorb_phase, ha] at ht
    cases ht

/-- What FINALIZE leaves, by the closed form of its padding (R178). -/
theorem Engine.padded_of_active (hs : e.Shaped) (hc : e.Counted) (ha : e.phase = .active) :
    e.Padded u (e.padAndCompress u) := by
  have := lt_of_lengthBound _ (hc.1 ha).2
  exact Engine.padded_padAndCompress hs (by omega)

theorem Engine.shaped_finalize (hs : e.Shaped) (hc : e.Counted) (ha : e.phase = .active) :
    (e.finalize u).1.Shaped :=
  (Engine.padded_of_active hs hc ha).shaped

theorem Engine.compressedLen_finalize (hs : e.Shaped) (hc : e.Counted) (ha : e.phase = .active) :
    (e.finalize u).1.compressedLen.toNat = e.compressedLen.toNat + e.curBlockLen.toNat :=
  (Engine.padded_of_active hs hc ha).count

/-- FINALIZE moves the partial block's bytes into the counter, so the bound carries over (R27, R171). -/
theorem Engine.counted_finalize (hs : e.Shaped) (hc : e.Counted) (ha : e.phase = .active) :
    (e.finalize u).1.Counted := by
  refine ⟨fun h => ?_, fun _ => ?_⟩
  · rw [Engine.finalize_phase] at h
    cases h
  · rw [Engine.compressedLen_finalize hs hc ha, Engine.finalize_alg]
    exact (hc.1 ha).2

/-! ### The machine -/

/-- The invariant says nothing of the host interface. -/
theorem State.Inv.capture (h : s.Inv) (c : Command) (rest : List HostAction) : (s.capture c rest).Inv := h

theorem State.Inv.raise (h : s.Inv) (err : ErrorCode) : (s.raise err).Inv := h

theorem State.inv_of_reset (h : s.engine = Engine.reset) : s.Inv := by
  unfold State.Inv
  rw [h]
  exact ⟨Engine.shaped_reset, Engine.counted_of_unbound rfl, fun hne => absurd rfl hne⟩

/-- A successful answer meets the invariant when its registers do, and the unit of their family is wired. -/
theorem State.inv_respondOk (hs : e.Shaped) (hc : e.Counted) (hw : s.units.present e.alg.family = true) (d : List Byte) :
    (s.respondOk e d).Inv := ⟨hs, hc, fun _ => hw⟩

/-- The end of a session, from registers that meet the invariant (R170, R179). -/
theorem State.inv_respondOk_finalize (hs : e.Shaped) (hc : e.Counted) (ha : e.phase = .active)
    (hw : s.units.present e.alg.family = true) (d : List Byte) : (s.respondOk (e.finalize u).1 d).Inv :=
  State.inv_respondOk (Engine.shaped_finalize hs hc ha) (Engine.counted_finalize hs hc ha) (by rwa [Engine.finalize_alg]) d

/-- Every command that is answered keeps the invariant. -/
theorem State.Inv.step_command {t : State} {c : Command} {rest : List HostAction} (h : s.Inv)
    (hin : s.inbox = .command c :: rest) (hstep : step s = .next t) : t.Inv := by
  obtain ⟨hs, hc, hsession⟩ := id h
  have hwired (ha : s.engine.phase = .active) : s.units.present s.engine.alg.family = true :=
    hsession (by rw [ha]; decide)
  rcases step_command_cases hin hstep with ⟨err, rfl, -⟩ | ⟨a, -, hw, rfl⟩ | ⟨n, -, ha, hb, rfl⟩ | ⟨i, p, -, hp, ha, rfl⟩
  · exact (h.capture c rest).raise err
  · exact State.inv_respondOk (Engine.shaped_fresh a) (Engine.counted_fresh a) hw []
  · exact State.inv_respondOk (Engine.shaped_absorb hs hb) (Engine.counted_absorb hs hc ha hb)
      (by simpa using hwired ha) []
  · have habsorbed : (s.engine.absorb s.units p).Shaped ∧ (s.engine.absorb s.units p).Counted := by
      rcases hp with ⟨-, rfl⟩ | ⟨-, rfl, hb⟩
      · exact ⟨hs, hc⟩
      · exact ⟨Engine.shaped_absorb hs hb, Engine.counted_absorb hs hc ha hb⟩
    exact State.inv_respondOk_finalize habsorbed.1 habsorbed.2 (by simpa using ha) (by simpa using hwired ha) _

end

/-- Settles O47: the reset registers are an unbound engine with empty buffers of the row's sizes. -/
theorem resetMeetsInvariant : Obligations.ResetMeetsInvariant := State.inv_of_reset rfl

/-- Settles O48: an idle step changes nothing, a hardware reset leaves the reset registers, and every command keeps the
invariant. -/
theorem stepKeepsInvariant : Obligations.StepKeepsInvariant := by
  intro s t h hstep
  rcases step_cases hstep with ⟨-, rfl⟩ | ⟨rest, -, rfl⟩ | ⟨c, rest, hin, -⟩
  · exact h
  · exact State.inv_of_reset rfl
  · exact h.step_command hin hstep

/-! ### The lifecycle and the bound algorithm -/

/-- Settles O54: rejections and UPDATE keep the phase. -/
theorem phaseTransitions : Obligations.PhaseTransitions := by
  intro s t hstep hne
  rcases step_cases hstep with ⟨-, rfl⟩ | ⟨rest, hin, rfl⟩ | ⟨c, rest, hin, -⟩
  · exact absurd rfl hne
  · exact .inl ⟨rest, hin, rfl⟩
  · refine .inr ?_
    rcases step_command_cases hin hstep with
      ⟨err, rfl, -⟩ | ⟨a, hd, -, rfl⟩ | ⟨n, -, -, -, rfl⟩ | ⟨i, p, hd, hi, ha, rfl⟩
    · exact absurd rfl hne
    · exact .inl ⟨c, rest, a, hin, hd, answeredOk_respondOk _ _ _, rfl⟩
    · exact absurd (Engine.absorb_phase _ _ _) hne
    · exact .inr ⟨c, rest, i, hin, hd, hi.imp And.left And.left, answeredOk_respondOk _ _ _, ha, rfl⟩

/-- Settles O55: ABSORB and FINALIZE keep the algorithm. -/
theorem algIsWrittenOnlyByInit : Obligations.AlgIsWrittenOnlyByInit := by
  intro s t hstep hne
  rcases step_cases hstep with ⟨-, rfl⟩ | ⟨rest, hin, -⟩ | ⟨c, rest, hin, -⟩
  · exact absurd rfl hne
  · exact .inl ⟨rest, hin⟩
  · refine .inr ?_
    rcases step_command_cases hin hstep with ⟨err, rfl, -⟩ | ⟨a, hd, -, rfl⟩ | ⟨n, -, -, -, rfl⟩ | ⟨i, p, -, -, -, rfl⟩
    · exact absurd rfl hne
    · exact ⟨c, rest, hin, hd, answeredOk_respondOk _ _ _⟩
    · exact absurd (Engine.absorb_alg _ _ _) hne
    · exact absurd (by simp) hne

end Sys2Proof.Machine
end

section
/-! The length field that FINISH writes (spec/43_finish.md R175, R176): the bytes of the bit length, which give it back
without reduction. -/

namespace Sys2Proof.Machine

/-! ### Byte order: `dec` after `enc` -/

theorem dec_big (bs : List Byte) : dec bs .big = dec bs.reverse .little := by
  simp [dec]

/-- The two byte orders hold the same bytes, in reverse (R12). -/
theorem enc_big (v n : Nat) : enc v n .big = (enc v n .little).reverse := by
  apply List.ext_getElem (by simp)
  intro i hi _
  simp [enc]

theorem enc_little_succ (v n : Nat) :
    enc v (n + 1) .little = BitVec.ofNat 8 (v % 256) :: enc (v / 256) n .little := by
  simp [enc, List.range_succ_eq_map, Nat.div_div_eq_div_mul, Nat.pow_succ, Nat.mul_comm]

theorem dec_cons_little (b : Byte) (bs : List Byte) : dec (b :: bs) .little = dec bs .little * 256 + b.toNat := rfl

theorem dec_enc_little {v n : Nat} (h : v < 256 ^ n) : dec (enc v n .little) .little = v := by
  induction n generalizing v with
  | zero =>
    rw [Nat.pow_zero, Nat.lt_one_iff] at h
    rw [h]
    rfl
  | succ n ih =>
    have hrest : v / 256 < 256 ^ n := by rwa [Nat.div_lt_iff_lt_mul (by decide), ← Nat.pow_succ]
    rw [enc_little_succ, dec_cons_little, ih hrest, BitVec.toNat_ofNat]
    omega

/-- What `n` bytes can hold is read back from its encoding, in either order (R12). -/
theorem dec_enc {v n : Nat} (h : v < 256 ^ n) (o : Endian) : dec (enc v n o) o = v := by
  cases o with
  | big => rw [dec_big, enc_big, List.reverse_reverse, dec_enc_little h]
  | little => exact dec_enc_little h

/-! ### The last bytes of the block -/

/-- Padding ends with the length field, so the last `L` bytes of the last block are its bytes (R175, R176, R178). -/
theorem Engine.Padded.lengthField {u : Units} {e f : Engine} (h : e.Padded u f) :
    f.block.readBytes (e.alg.blockLength - e.alg.lengthCounterWidth) e.alg.lengthCounterWidth =
      enc ((e.compressedLen.toNat + e.curBlockLen.toNat) * 8) e.alg.lengthCounterWidth e.alg.outputEndianness := by
  have hL := lengthCounterWidth_lt e.alg
  have hB : e.alg.blockLength ≤ e.lastBytes.length := by rw [h.length]; split <;> omega
  obtain ⟨front, hlast⟩ : ∃ front, e.lastBytes = front ++ enc ((e.compressedLen.toNat + e.curBlockLen.toNat) * 8)
      e.alg.lengthCounterWidth e.alg.outputEndianness := ⟨_, (List.append_assoc _ (_ :: _) _).symm⟩
  have hfront : e.lastBytes.length = front.length + e.alg.lengthCounterWidth := by
    rw [hlast, List.length_append, length_enc]
  apply List.ext_getElem (by simp)
  intro i hi _
  rw [Memory.length_readBytes] at hi
  rw [← List.getD_eq_getElem _ 0, ← List.getD_eq_getElem _ 0, Memory.getD_readBytes _ _ _ _ hi, h.block _ (by omega)]
  rw [show e.lastBytes.length - e.alg.blockLength + (e.alg.blockLength - e.alg.lengthCounterWidth + i) =
    front.length + i by omega, hlast, List.getD_append_right _ _ _ _ (by omega), Nat.add_sub_cancel_left]

/-- Settles O29: the length bound of the invariant makes the bit length fit the field. -/
theorem bitLengthIsExact : Obligations.BitLengthIsExact := by
  intro s t hinv ha hexec
  obtain ⟨hs, hc, -⟩ := hinv
  obtain ⟨-, hfits⟩ := hc.1 ha
  have hpadded := Engine.padded_of_active (u := s.units) hs hc ha
  obtain rfl : s.respondOk (s.engine.finalize s.units).1 (s.engine.finalize s.units).2 = t := by
    obtain ⟨hlen, -⟩ := exec_eq_next.1 hexec
    rw [exec_finish_ok ha (List.length_eq_zero_iff.1 hlen)] at hexec
    injection hexec
  refine ⟨?_, hpadded.count⟩
  calc dec ((s.engine.padAndCompress s.units).block.readBytes _ _) s.engine.alg.outputEndianness
      = (s.engine.compressedLen.toNat + s.engine.curBlockLen.toNat) * 8 := by
        rw [hpadded.lengthField]
        exact dec_enc (by rwa [Nat.pow_mul] at hfits) _
    _ = (s.engine.padAndCompress s.units).compressedLen.toNat * 8 := by rw [hpadded.count]

end Sys2Proof.Machine
end

section
/-! A step on a command of the table is the command's meaning (spec/20_memory.md R75, R79; spec/30_encoding.md R98). -/

namespace Sys2Proof.Machine

/-- Settles O49, by `step_of_decode`: capturing the command is the update of `inbox` and `payload` that the statement
writes out. -/
theorem stepRunsTheDecodedCommand : Obligations.StepRunsTheDecodedCommand := by
  intro s c rest i hin hd
  calc step s = exec i (s.capture c rest) := step_of_decode hin hd
    _ = exec i { s with inbox := rest, payload := c.payload } := by rw [State.capture]

end Sys2Proof.Machine
end

section
/-! The decoder and the encoder (spec/30_encoding.md R91 to R98): what each header word decodes to, that encoding and
decoding are inverse to each other, the rows of the command table, and the words that match none of them. -/

namespace Sys2Proof

/-! ### What a header word decodes to -/

/-- Every `ALG` below 8 numbers an algorithm (R93). -/
theorem Alg.exists_number_eq {n : Nat} (hn : n < 8) : ∃ a : Alg, a.number = n := by
  interval_cases n
  exacts [⟨.sha1, rfl⟩, ⟨.sha224, rfl⟩, ⟨.sha256, rfl⟩, ⟨.sha384, rfl⟩, ⟨.sha512, rfl⟩, ⟨.sha512_224, rfl⟩,
    ⟨.sha512_256, rfl⟩, ⟨.legacy128, rfl⟩]

theorem decodeInit_number (a : Alg) : decodeInit a.number = .command (Instr.init a) := by
  cases a <;> rfl

theorem decodeInit_of_ge {n : Nat} (hn : 8 ≤ n) : decodeInit n = .initUnsupported n := by
  obtain ⟨k, rfl⟩ := Nat.exists_eq_add_of_le' hn
  rfl

/-- The INIT part of the decoder as the chain of tests of R98. -/
theorem decodeInit_eq_ite (n : Nat) :
    decodeInit n =
      if n = 0 then .command .initSha1
      else if n = 1 then .command .initSha224
      else if n = 2 then .command .initSha256
      else if n = 3 then .command .initSha384
      else if n = 4 then .command .initSha512
      else if n = 5 then .command .initSha512_224
      else if n = 6 then .command .initSha512_256
      else if n = 7 then .command .initLegacy128
      else .initUnsupported n := by
  rcases Nat.lt_or_ge n 8 with hn | hn
  · interval_cases n <;> rfl
  · rw [decodeInit_of_ge hn]
    iterate 8 rw [if_neg (by omega)]

/-- All that a header word can decode to, with the fields that make it so (R98). -/
theorem decode_cases (h : PortWord) :
    (∃ a : Alg, opcOf h = 1 ∧ algOf h = a.number ∧ lenOf h = 0 ∧ decode h = .command (Instr.init a)) ∨
      (opcOf h = 1 ∧ 8 ≤ algOf h ∧ lenOf h = 0 ∧ decode h = .initUnsupported (algOf h)) ∨
      (opcOf h = 2 ∧ algOf h = 0 ∧ decode h = .command (.update (lenOf h))) ∨
      (opcOf h = 3 ∧ algOf h = 0 ∧ lenOf h = 0 ∧ decode h = .command .finish) ∨
      (opcOf h = 4 ∧ algOf h = 0 ∧ decode h = .command (.oneshot (lenOf h))) ∨
      decode h = .illegal := by
  by_cases hinit : opcOf h = 1 ∧ lenOf h = 0
  · obtain ⟨ho, hl⟩ := hinit
    rw [decode_of_init ho hl]
    rcases Nat.lt_or_ge (algOf h) 8 with ha | ha
    · obtain ⟨a, ha⟩ := Alg.exists_number_eq ha
      exact .inl ⟨a, ho, ha.symm, hl, ha ▸ decodeInit_number a⟩
    · exact .inr (.inl ⟨ho, ha, hl, decodeInit_of_ge ha⟩)
  · unfold decode
    split
    case h_1 ho => simp [ho, show lenOf h ≠ 0 from fun hl => hinit ⟨ho, hl⟩]
    case h_2 ho => by_cases ha : algOf h = 0 <;> simp [ho, ha]
    case h_3 ho => by_cases hal : algOf h = 0 ∧ lenOf h = 0 <;> simp [ho, hal]
    case h_4 ho => by_cases ha : algOf h = 0 <;> simp [ho, ha]
    case h_5 => simp

/-- Settles O3: the given numbers are the fields of `h`, and each value of `OPC` has its clause. -/
theorem decoderIsTotalFunctionOfFields : Obligations.DecoderIsTotalFunctionOfFields := by
  intro h opc alg len _ halg hlen hh
  obtain ⟨rfl, rfl, rfl⟩ := fields_unique halg hlen hh
  rw [← decodeInit_eq_ite]
  unfold decode
  split
  case h_1 ho => simp [ho]
  case h_2 ho => simp [ho]
  case h_3 ho => by_cases ha : algOf h = 0 <;> simp [ho, ha]
  case h_4 ho => simp [ho]
  case h_5 ho1 ho2 ho3 ho4 => rw [if_neg ho1, if_neg ho2, if_neg ho3, if_neg ho4]

/-! ### The encoder -/

theorem encode_init (a : Alg) : encode (Instr.init a) = headerOf 1 a.number 0 := by
  cases a <;> rfl

theorem wellFormed_init (a : Alg) : (Instr.init a).WellFormed := by
  cases a <;> rfl

theorem wellFormed_update {len : Nat} : (Instr.update len).WellFormed ↔ len < 2 ^ 24 := by
  simp [Instr.WellFormed, Instr.wellFormed, lenFits]

theorem wellFormed_oneshot {len : Nat} : (Instr.oneshot len).WellFormed ↔ len < 2 ^ 24 := by
  simp [Instr.WellFormed, Instr.wellFormed, lenFits]

/-- Settles O1: the fields of the encoded word are the command's own, whatever `LEN` its 24 bits carry. -/
theorem decodeOfEncode : Obligations.DecodeOfEncode := by
  intro i hi
  rcases Machine.instr_cases i with ⟨a, rfl⟩ | ⟨len, rfl⟩ | rfl | ⟨len, rfl⟩
  · rw [encode_init]
    exact Machine.decode_initCommand a
  · obtain ⟨ho, ha, hl⟩ := fields_headerOf (opc := 2) (alg := 0) (by decide) (by decide) (wellFormed_update.1 hi)
    rw [encode, decode_of_update ho ha, hl]
  · exact Machine.decode_finishCommand
  · obtain ⟨ho, ha, hl⟩ := fields_headerOf (opc := 4) (alg := 0) (by decide) (by decide) (wellFormed_oneshot.1 hi)
    rw [encode, decode_of_oneshot ho ha, hl]

/-- Settles O2: the decoder fixes or returns every field, so the word is rebuilt from what it read. -/
theorem encodeOfDecode : Obligations.EncodeOfDecode := by
  intro h i hd
  have hword := headerOf_fields h
  rcases decode_cases h with ⟨a, ho, ha, hl, hd'⟩ | ⟨-, -, -, hd'⟩ | ⟨ho, ha, hd'⟩ | ⟨ho, ha, hl, hd'⟩ |
      ⟨ho, ha, hd'⟩ | hd' <;>
    cases hd.symm.trans hd' <;> rw [ho, ha] at hword
  · exact ⟨wellFormed_init a, by rwa [encode_init, ← hl]⟩
  · exact ⟨wellFormed_update.2 (lenOf_lt h), hword⟩
  · exact ⟨rfl, by rwa [hl] at hword⟩
  · exact ⟨wellFormed_oneshot.2 (lenOf_lt h), hword⟩

/-! ### The command table -/

/-- The row of a well-formed command selects its header word (R92, R96). -/
theorem encode_selects_row (i : Instr) : Laws.EncodesInRow.Statement i := by
  cases i with
  | initSha1 => exact Laws.EncodesInRow.initSha1
  | initSha224 => exact Laws.EncodesInRow.initSha224
  | initSha256 => exact Laws.EncodesInRow.initSha256
  | initSha384 => exact Laws.EncodesInRow.initSha384
  | initSha512 => exact Laws.EncodesInRow.initSha512
  | initSha512_224 => exact Laws.EncodesInRow.initSha512_224
  | initSha512_256 => exact Laws.EncodesInRow.initSha512_256
  | initLegacy128 => exact Laws.EncodesInRow.initLegacy128
  | update len => exact Laws.EncodesInRow.update len
  | finish => exact Laws.EncodesInRow.finish
  | oneshot len => exact Laws.EncodesInRow.oneshot len

/-- A word that decodes to a command selects the row of its mnemonic (R96). -/
theorem exists_row_of_decode {h : PortWord} {i : Instr} (hd : decode h = .command i) :
    ∃ r ∈ commandTable, h &&& r.mask = r.pattern ∧ r.mnemonic = i.mnemonic := by
  obtain ⟨hi, rfl⟩ := encodeOfDecode h i hd
  obtain ⟨-, r, hr, hm, hs⟩ := encode_selects_row i hi
  exact ⟨r, hr, by simpa [Row.selects] using hs, hm⟩

/-- A row is the one header word of a command without a payload, or leaves `LEN` free (R96). -/
theorem row_cases {r : Row} (hr : r ∈ commandTable) :
    (∃ i : Instr, i.WellFormed ∧ i.payloadLength = 0 ∧ r = ⟨i.mnemonic, encode i, 0xFFFFFFFF⟩) ∨
      r = ⟨"UPDATE", BitVec.ofNat 32 (0x20 * 2 ^ 24), 0xFF000000⟩ ∨
      r = ⟨"ONESHOT", BitVec.ofNat 32 (0x40 * 2 ^ 24), 0xFF000000⟩ := by
  have hrows : commandTable =
      [Alg.sha1, .sha224, .sha256, .sha384, .sha512, .sha512_224, .sha512_256, .legacy128].map
        (fun a => ⟨(Instr.init a).mnemonic, encode (Instr.init a), 0xFFFFFFFF⟩) ++
      [⟨"UPDATE", BitVec.ofNat 32 (0x20 * 2 ^ 24), 0xFF000000⟩, ⟨Instr.finish.mnemonic, encode .finish, 0xFFFFFFFF⟩,
        ⟨"ONESHOT", BitVec.ofNat 32 (0x40 * 2 ^ 24), 0xFF000000⟩] := by decide
  rw [hrows, List.mem_append, List.mem_map] at hr
  rcases hr with ⟨a, -, rfl⟩ | hr
  · exact .inl ⟨Instr.init a, wellFormed_init a, Machine.payloadLength_init a, rfl⟩
  · simp only [List.mem_cons, List.not_mem_nil, or_false] at hr
    rcases hr with rfl | rfl | rfl
    · exact .inr (.inl rfl)
    · exact .inl ⟨.finish, rfl, rfl, rfl⟩
    · exact .inr (.inr rfl)

/-- `LEN` is bits 23:0 (R91). -/
theorem lenOf_eq_mod (h : PortWord) : lenOf h = h.toNat % 2 ^ 24 := by
  simp [lenOf, bits]

/-- The fields of a word that a row with `LEN` free selects: the row gives `OPC`, and `ALG` is 0 (R96). -/
theorem fields_of_lenMask {h : PortWord} {opc : Nat} (ho : opc < 16)
    (hs : h &&& 0xFF000000 = BitVec.ofNat 32 (opc * 16 * 2 ^ 24)) : opcOf h = opc ∧ algOf h = 0 := by
  have htop := (and_lenMask_eq (by omega)).1 hs
  obtain ⟨hopc, halg, -⟩ := fields_unique (h := h) (opc := opc) (alg := 0) (by decide)
    (Nat.mod_lt h.toNat (by decide : 0 < 2 ^ 24)) (by omega)
  exact ⟨hopc, halg⟩

/-- A word that a row selects decodes to the row's command, with `LEN` where the row leaves it free (R94, R96). -/
theorem decode_of_row {h : PortWord} {r : Row} (hr : r ∈ commandTable) (hs : h &&& r.mask = r.pattern) :
    ∃ i, decode h = .command i ∧ i.mnemonic = r.mnemonic ∧
      i.payloadLength = if r.mask = 0xFF000000 then h.toNat % 2 ^ 24 else 0 := by
  rcases row_cases hr with ⟨i, hi, hp, rfl⟩ | rfl | rfl
  · rw [and_wholeMask] at hs
    exact ⟨i, hs ▸ decodeOfEncode i hi, rfl, hp⟩
  · obtain ⟨ho, ha⟩ := fields_of_lenMask (opc := 2) (by decide) hs
    exact ⟨_, decode_of_update ho ha, rfl, lenOf_eq_mod h⟩
  · obtain ⟨ho, ha⟩ := fields_of_lenMask (opc := 4) (by decide) hs
    exact ⟨_, decode_of_oneshot ho ha, rfl, lenOf_eq_mod h⟩

theorem row_eq_of_mnemonic : ∀ r ∈ commandTable, ∀ r' ∈ commandTable, r.mnemonic = r'.mnemonic → r = r' := by
  decide

/-- Settles O4: two rows that select one word name the one command it decodes to, and mnemonics are distinct. -/
theorem commandTableSelectsRows : Obligations.CommandTableSelectsRows := by
  refine ⟨by decide, fun h => ⟨fun r hr hs => decode_of_row hr hs, fun i hd => exists_row_of_decode hd, ?_⟩⟩
  intro r hr r' hr' hs hs'
  obtain ⟨i, hd, hm, -⟩ := decode_of_row hr hs
  obtain ⟨i', hd', hm', -⟩ := decode_of_row hr' hs'
  cases hd.symm.trans hd'
  exact row_eq_of_mnemonic r hr r' hr' (hm.symm.trans hm')

/-! ### The words outside the table -/

/-- The eight INIT words with an `ALG` of 8 to 15 (R97). -/
abbrev unsupportedInitWords : List PortWord :=
  [0x18000000, 0x19000000, 0x1A000000, 0x1B000000, 0x1C000000, 0x1D000000, 0x1E000000, 0x1F000000]

theorem headerOf_mem_unsupportedInitWords {alg : Nat} (h8 : 8 ≤ alg) (h16 : alg < 16) :
    headerOf 1 alg 0 ∈ unsupportedInitWords := by
  interval_cases alg <;> decide

theorem mem_unsupportedInitWords {h : PortWord} :
    h ∈ unsupportedInitWords ↔ ∃ n, decode h = .initUnsupported n := by
  constructor
  · intro hmem
    fin_cases hmem <;> exact ⟨_, rfl⟩
  · rintro ⟨n, hd⟩
    rcases decode_cases h with ⟨a, -, -, -, hd'⟩ | ⟨ho, ha, hl, -⟩ | ⟨-, -, hd'⟩ | ⟨-, -, -, hd'⟩ | ⟨-, -, hd'⟩ | hd'
    case inr.inl =>
      rw [← headerOf_fields h, ho, hl]
      exact headerOf_mem_unsupportedInitWords ha (algOf_lt h)
    all_goals cases hd.symm.trans hd'

/-- The response of a rejection, with its word as R97 and R216 write it. -/
theorem Machine.State.response_raise (err : ErrorCode) (s : State) :
    (s.raise err).response = some ⟨BitVec.ofNat 32 (err.code + 16 * s.engine.phase.code), []⟩ := by
  rw [State.raise_response, responseWord_err]

/-- Settles O5: a word that selects no row decodes to no command, so it is an unsupported INIT or illegal. -/
theorem wordsOutsideTheTableAreRejected : Obligations.WordsOutsideTheTableAreRejected := by
  intro s h rest hout hin
  have hstep := Machine.step_command hin
  cases hd : decode h with
  | command i =>
    obtain ⟨r, hr, hs, -⟩ := exists_row_of_decode hd
    exact absurd hs (hout r hr)
  | initUnsupported n =>
    rw [hd, Machine.execDecoded_initUnsupported rfl] at hstep
    rw [if_pos (mem_unsupportedInitWords.2 ⟨n, hd⟩)]
    exact ⟨_, hstep, rfl, rfl, rfl, Machine.State.response_raise .badAlg _⟩
  | illegal =>
    rw [hd, Machine.execDecoded_illegal rfl] at hstep
    rw [if_neg (mem_unsupportedInitWords.not.2 (by simp [hd]))]
    exact ⟨_, hstep, rfl, rfl, rfl, Machine.State.response_raise .badCmd _⟩

/-- Settles O6: the decoder runs on each of the twelve words. -/
theorem writtenHeaderWordsDecode : Obligations.WrittenHeaderWordsDecode := by
  unfold Obligations.WrittenHeaderWordsDecode
  decide

end Sys2Proof
end

section
/-! The responses of the commands (spec/30_encoding.md R100 to R103): the fields of the response word, the digest that
comes with it, and the words there are. -/

namespace Sys2Proof.Machine

/-- The fields of a response word do not overlap: a digest has at most 64 bytes (R100, R101). -/
theorem toNat_responseWord {err dlen : Nat} (herr : err ≤ 6) (hd : dlen ≤ 64) (p : Phase) :
    (responseWord err p dlen).toNat = err + p.code * 16 + dlen * 256 := by
  have hp : p.code ≤ 2 := by cases p <;> decide
  rw [responseWord, BitVec.toNat_ofNat, Nat.mod_eq_of_lt (by omega)]

theorem ErrorCode.code_le (err : ErrorCode) : err.code ≤ 6 := by
  cases err <;> decide

theorem length_finalize_le (u : Units) (e : Engine) : (e.finalize u).2.length ≤ 64 := by
  have := digestLength_cases e.alg
  rw [Engine.length_finalize]
  omega

theorem init_ne_finish (a : Alg) : Instr.init a ≠ .finish := by
  cases a <;> simp [Instr.init]

theorem init_ne_oneshot (a : Alg) (n : Nat) : Instr.init a ≠ .oneshot n := by
  cases a <;> simp [Instr.init]

/-- Settles O44: of the ways a command can end, only the finished session shows a digest, and it is the only one that
ends a success in the TERMINAL phase. -/
theorem responseFields : Obligations.ResponseFields := by
  intro s t c rest hin hstep
  rcases step_command_cases hin hstep with ⟨err, rfl, -⟩ | ⟨a, hd, -, rfl⟩ | ⟨n, hd, ha, -, rfl⟩ | ⟨i, p, hd, hi, ha, rfl⟩
  · have hne := errorCode_ne_zero err
    exact ⟨_, err.code, rfl, err.code_le, toNat_responseWord err.code_le (Nat.zero_le _) _, by simp [hne]⟩
  · refine ⟨_, 0, rfl, by decide, toNat_responseWord (by decide) (Nat.zero_le _) _, ?_⟩
    simp [hd, init_ne_finish, init_ne_oneshot]
  · refine ⟨_, 0, rfl, by decide, toNat_responseWord (by decide) (Nat.zero_le _) _, ?_⟩
    simp [hd, ha]
  · refine ⟨_, 0, rfl, by decide, toNat_responseWord (by decide) (length_finalize_le _ _) _, ?_⟩
    have hfin : i = .finish ∨ ∃ n, i = .oneshot n := hi.imp And.left And.left
    simp [hd, ha, hfin, Engine.finalize_digest, length_serialise]

/-- Settles O45: each error has the phases in which it is raised, and a digest has one of four lengths. -/
theorem responseWordsAreListed : Obligations.ResponseWordsAreListed := by
  intro s t c rest hin hstep
  rcases step_command_cases hin hstep with
    ⟨err, rfl, hunbound, hterminal, hactive⟩ | ⟨a, -, -, rfl⟩ | ⟨n, -, ha, -, rfl⟩ | ⟨i, p, -, -, -, rfl⟩ <;>
    refine ⟨_, rfl, ?_⟩ <;> dsimp only
  · rw [State.capture_engine]
    cases err with
    | misuse => rw [hterminal rfl]; decide
    | notInit => rw [hunbound rfl]; decide
    | lenOverflow => rw [hactive rfl]; decide
    | badAlg => cases s.engine.phase <;> decide
    | noTransform => cases s.engine.phase <;> decide
    | badCmd => cases s.engine.phase <;> decide
  · rw [Engine.fresh_phase]; decide
  · rw [Engine.absorb_phase, ha]; decide
  · rw [Engine.finalize_phase, Engine.length_finalize]
    rcases digestLength_cases ((s.engine.absorb s.units p).alg) with hd | hd | hd | hd <;> rw [hd] <;> decide

end Sys2Proof.Machine
end

section
/-! INIT and the sessions it creates (spec/40_init.md R120 to R132): what each constructor binds, what an accepted INIT leaves
and a rejected one keeps, and the digest of the session that has no message (spec/43_finish.md R183). -/

namespace Sys2Proof.Machine

section
variable {s t : State} {a : Alg} {u : Units}

/-! ### A session with no message -/

/-- INIT fills the block with zeros (R34, R120). -/
theorem Engine.read_fresh (a : Alg) (k : Nat) : (Engine.fresh a).block.read k = 0 := by
  rw [Engine.fresh_block, Memory.read_writeBytes Memory.wf_nil]
  split
  · exact getD_zeroBytes _ _
  · rfl

theorem enc_zero (n : Nat) (e : Endian) : enc 0 n e = zeroBytes n := by
  cases e <;> simp [enc, zeroBytes, List.map_const']

/-- The zeros before the length field and the length field of no message fill the block after the marker (R183). -/
theorem Engine.lastBytes_fresh (a : Alg) : (Engine.fresh a).lastBytes = 0x80 :: zeroBytes (a.blockLength - 1) := by
  have hL := lengthCounterWidth_lt a
  have hzeros : (2 * a.blockLength - a.lengthCounterWidth - 1) % a.blockLength + a.lengthCounterWidth =
      a.blockLength - 1 := by
    rw [Nat.mod_eq_sub_mod (by omega), Nat.mod_eq_of_lt (by omega)]
    omega
  have hcur : (Engine.fresh a).curBlockLen.toNat = 0 := rfl
  have hcount : (Engine.fresh a).compressedLen.toNat = 0 := rfl
  rw [Engine.lastBytes, hcur, hcount, Engine.fresh_alg, Nat.zero_add, Nat.zero_mul, enc_zero, Nat.sub_zero, zeroBytes,
    zeroBytes, ← List.replicate_add, hzeros]
  rfl

/-- Chaining a message of one block is one transform (R161). -/
theorem chain_one {st : List Word} {w : List Byte} (h : w.length = a.blockLength) :
    chain u a st w 1 = u.apply a.family st w := by
  rw [chain_succ, blockAt, Nat.zero_mul, List.drop_zero, ← h, List.take_length]
  rfl

/-- FINALIZE of a new session compresses one block, from the initial state (R178, R183). -/
theorem Engine.finalize_fresh_digest (u : Units) (a : Alg) :
    ((Engine.fresh a).finalize u).2 =
      serialise a (u.apply a.family a.initialState (0x80 :: zeroBytes (a.blockLength - 1))) := by
  have hB := blockLength_pos a
  have hlen : (0x80 :: zeroBytes (a.blockLength - 1)).length = a.blockLength := by
    rw [List.length_cons, length_zeroBytes]
    omega
  have hpad : (Engine.fresh a).Padded u ((Engine.fresh a).padAndCompress u) :=
    Engine.padded_of_active (Engine.shaped_fresh a) (Engine.counted_fresh a) rfl
  have hstate := hpad.state
  rw [Engine.lastBytes_fresh, Engine.fresh_alg, hlen, Nat.div_self hB, Engine.fresh_state, chain_one hlen] at hstate
  rw [Engine.finalize_digest, Engine.fresh_alg]
  exact congrArg (serialise a) hstate

/-- A run goes on from the state that its first step answers. -/
theorem run_succ_of_step (M : Host.Core) {s t : M.State} (k : Nat) (h : M.step s = .next t) : M.run (k + 1) s = M.run k t := by
  rw [Host.Core.run, h]

/-! ### What an INIT answers -/

/-- A rejection of a command that has no payload writes the response alone (R216). -/
theorem State.raise_of_payload_nil (h : s.payload = []) (err : ErrorCode) :
    s.raise err = { s with response := some ⟨BitVec.ofNat 32 (err.code + 16 * s.engine.phase.code), []⟩ } := by
  simp [State.raise, responseWord_err, h]

/-- An INIT whose transform unit is not wired (R120, R213). -/
theorem exec_init_rejected (hp : s.payload = []) (hu : s.units.present a.family = false) :
    exec (Instr.init a) s = .next (s.raise .noTransform) := by
  rw [exec_of_length (by simp [hp]), answer_init]
  simp [initSession, hu]

/-- Every constructor binds its algorithm's row of the parameter table, and creates the session of that row (R120). -/
theorem bindsRow_init (a : Alg) :
    BindsRow (Instr.init a) (headerOf 1 a.number 0) a a.number a.blockLength a.stateWidth a.wordSize a.lengthCounterWidth
      a.outputEndianness a.family a.initialState := by
  refine ⟨decode_initCommand a, rfl, rfl, rfl, rfl, rfl, rfl, rfl, length_initialState a, fun s hp => ⟨fun hu => ?_, ?_⟩⟩
  · exact ⟨_, exec_init_ok hp hu, rfl, rfl, rfl, Engine.read_fresh a, rfl, rfl, rfl, rfl, rfl, rfl⟩
  · intro hu
    rw [exec_init_rejected hp hu, State.raise_of_payload_nil hp]
    rfl

/-- An accepted INIT leaves the registers of a new session, whatever they were (R120, R132). -/
theorem engine_eq_fresh_of_answeredOk (h : exec (Instr.init a) s = .next t) (hok : t.answeredOk = true) :
    t.engine = Engine.fresh a := by
  obtain ⟨-, hans⟩ := exec_eq_next.1 h
  rw [answer_init] at hans
  subst hans
  rcases initSession_cases a s with ⟨-, hi⟩ | ⟨-, hi⟩ <;> rw [hi] at hok ⊢
  · rfl
  · rw [answeredOk_raise] at hok
    cases hok

/-- A command that is not answered with success is rejected by `raise`, and by nothing else (R216). -/
theorem eq_raise_of_not_answeredOk {c : Command} {rest : List HostAction} (hin : s.inbox = .command c :: rest)
    (hstep : step s = .next t) (hbad : t.answeredOk = false) : ∃ err, t = (s.capture c rest).raise err := by
  rcases step_command_cases hin hstep with ⟨err, rfl, -⟩ | ⟨a, -, -, rfl⟩ | ⟨n, -, -, -, rfl⟩ | ⟨i, p, -, -, -, rfl⟩
  case inl => exact ⟨err, rfl⟩
  all_goals
    rw [answeredOk_respondOk] at hbad
    cases hbad

end

/-! ### The digest of the empty message -/

/-- Settles O27: the session that INIT creates is finished as it is, and its one block is padding only. -/
theorem finishOfEmptyMessage : Obligations.FinishOfEmptyMessage := by
  intro s a rest hu hin
  have hinit := step_init_ok hin hu
  have hfinish := step_finish_ok (s := (s.capture (initCommand a) (.command finishCommand :: rest)).respondOk
    (Engine.fresh a) []) rfl rfl
  exact ⟨_, (run_succ_of_step Sys2Proof.core 1 hinit).trans (run_succ_of_step Sys2Proof.core 0 hfinish), rfl, rfl,
    Engine.finalize_fresh_digest s.units a⟩

/-! ### The eight constructors

Each is `bindsRow_init` at its algorithm: the header word, the row's numbers and the initial words of the rule are what
`headerOf` and `Alg.row` evaluate to. -/

/-- Settles O7: row 0 of the table (R121). -/
theorem initSha1BindsRow : Obligations.InitSha1BindsRow := bindsRow_init .sha1

/-- Settles O8: row 1 of the table (R122). -/
theorem initSha224BindsRow : Obligations.InitSha224BindsRow := bindsRow_init .sha224

/-- Settles O9: row 2 of the table (R123). -/
theorem initSha256BindsRow : Obligations.InitSha256BindsRow := bindsRow_init .sha256

/-- Settles O10: row 3 of the table (R124). -/
theorem initSha384BindsRow : Obligations.InitSha384BindsRow := bindsRow_init .sha384

/-- Settles O11: row 4 of the table (R125). -/
theorem initSha512BindsRow : Obligations.InitSha512BindsRow := bindsRow_init .sha512

/-- Settles O12: row 5 of the table (R126). -/
theorem initSha512x224BindsRow : Obligations.InitSha512x224BindsRow := bindsRow_init .sha512_224

/-- Settles O13: row 6 of the table (R127). -/
theorem initSha512x256BindsRow : Obligations.InitSha512x256BindsRow := bindsRow_init .sha512_256

/-- Settles O14: row 7 of the table, the little-endian one (R128). -/
theorem initLegacy128BindsRow : Obligations.InitLegacy128BindsRow := bindsRow_init .legacy128

/-! ### Rejected and repeated INITs -/

/-- Settles O15: an INIT word is answered with an error only by `raise`, which writes no register. -/
theorem rejectedInitChangesNothing : Obligations.RejectedInitChangesNothing := by
  intro s t h rest _ hin hstep hbad
  obtain ⟨err, rfl⟩ := eq_raise_of_not_answeredOk hin hstep hbad
  exact ⟨rfl, rfl, rfl⟩

/-- Settles O16: both are the registers of a new session of the algorithm. -/
theorem acceptedInitsLeaveEqualEngines : Obligations.AcceptedInitsLeaveEqualEngines := by
  intro a s s' t t' h h' hok hok'
  rw [engine_eq_fresh_of_answeredOk h hok, engine_eq_fresh_of_answeredOk h' hok']

end Sys2Proof.Machine
end

section
/-! COMPRESS, the transform units, and the Merkle–Damgård digest of a session of INIT and ONESHOT (spec/41_compress.md R142 to
R144, spec/44_codec.md R195, R197). -/

namespace Sys2Proof.Machine

/-! ### COMPRESS and the units -/

/-- `MemRead(0, n)` is the bytes at the offsets below `n` (R13). -/
theorem readBytes_zero (m : Memory) (n : Nat) : m.readBytes 0 n = (List.range n).map m.read := by
  simp [Memory.readBytes]

/-- Settles O17: the bytes that COMPRESS hands to the transform are read up to the block length, not the write pointer. -/
theorem compressWritesOnlyState : Obligations.CompressWritesOnlyState := by
  intro u e
  refine ⟨?_, length_apply u e.alg e.state e.blockBytes, rfl, rfl, rfl, rfl, rfl⟩
  rw [Engine.compress_state, Engine.blockBytes, readBytes_zero]

/-- Settles O53: an idle step, a hardware reset and each of the ways a command can end write other fields only. -/
theorem stepKeepsTransformUnits : Obligations.StepKeepsTransformUnits := by
  intro s t h
  rcases step_cases h with ⟨-, rfl⟩ | ⟨rest, -, rfl⟩ | ⟨c, rest, hin, -⟩
  · rfl
  · rfl
  · rcases step_command_cases hin h with ⟨_, rfl, -⟩ | ⟨_, -, -, rfl⟩ | ⟨_, -, -, -, rfl⟩ | ⟨_, _, -, -, -, rfl⟩ <;> rfl

/-! ### Chaining in two parts -/

section
variable {u : Units} {a : Alg} {e f : Engine} {w : List Byte}

theorem blockAt_append_right {B k : Nat} {v : List Byte} (hv : v.length = k * B) (w : List Byte) (j : Nat) :
    blockAt B (v ++ w) (k + j) = blockAt B w j := by
  rw [blockAt, blockAt, Nat.add_mul, ← hv, List.drop_append, Nat.add_sub_cancel_left,
    List.drop_eq_nil_of_le (Nat.le_add_right _ _), List.nil_append]

@[simp] theorem chain_zero (u : Units) (a : Alg) (st : List Word) (w : List Byte) : chain u a st w 0 = st := rfl

/-- Chaining whole blocks and then more is chaining from the state they leave (R161). -/
theorem chain_append_right {st : List Word} {v : List Byte} {k : Nat} (hv : v.length = k * a.blockLength) (w : List Byte)
    (j : Nat) : chain u a st (v ++ w) (k + j) = chain u a (chain u a st v k) w j := by
  induction j with
  | zero => rw [Nat.add_zero, chain_zero, chain_append (Nat.le_of_eq hv.symm)]
  | succ j ih => rw [← Nat.add_assoc, chain_succ, chain_succ, ih, blockAt_append_right hv]

/-! ### FINALIZE after ABSORB -/

/-- A padded message is `ceil((n + 1 + L) / B)` whole blocks (R144, R178). -/
theorem length_padding (a : Alg) (n : Nat) : n + (padding a n).length = paddedBlocks a n * a.blockLength := by
  have hlen : (padding a n).length = (2 * a.blockLength - a.lengthCounterWidth - 1 - n % a.blockLength) % a.blockLength +
      a.lengthCounterWidth + 1 := by
    simp [padding]
  rw [hlen, paddedBlocks]
  rcases blockLength_cases a with ⟨hB, hL⟩ | ⟨hB, hL⟩ <;> rw [hB, hL] <;> omega

/-- ABSORB leaves in the block what lies after the last whole block of `w` (R161). -/
theorem Engine.Absorbed.validBytes (h : e.Absorbed u w f) :
    f.block.readBytes 0 f.curBlockLen.toNat = w.drop (w.length / e.alg.blockLength * e.alg.blockLength) := by
  have hdm := Nat.div_add_mod' w.length e.alg.blockLength
  apply List.ext_getElem
  · rw [Memory.length_readBytes, h.cur, List.length_drop]
    omega
  · intro i hi hi'
    rw [Memory.length_readBytes, h.cur] at hi
    have hlt : w.length / e.alg.blockLength * e.alg.blockLength + i < w.length := by omega
    simp [Memory.readBytes, h.fresh i hi, List.getD_eq_getElem?_getD, hlt]

/-- The last bytes after ABSORB of `w` are what is left of `w` and the padding of the whole message (R178). -/
theorem Engine.Absorbed.lastBytes (h : e.Absorbed u w f) (hblocks : e.compressedLen.toNat % e.alg.blockLength = 0) :
    f.lastBytes = w.drop (w.length / e.alg.blockLength * e.alg.blockLength) ++
      padding e.alg (e.compressedLen.toNat + w.length) := by
  have hdm := Nat.div_add_mod' w.length e.alg.blockLength
  have hcount : f.compressedLen.toNat + f.curBlockLen.toNat = e.compressedLen.toNat + w.length := by
    rw [h.count, h.cur]
    omega
  have hmod : f.curBlockLen.toNat = (e.compressedLen.toNat + w.length) % e.alg.blockLength := by
    rw [h.cur, Nat.add_mod, hblocks, Nat.zero_add, Nat.mod_mod]
  rw [Engine.lastBytes, h.validBytes, hcount, h.alg, hmod, padding, Nat.mul_comm 8, List.cons_append]

/-- FINALIZE after ABSORB of `w` chains all blocks of `w` followed by the padding (R161, R178). -/
theorem Engine.Absorbed.finalize_state (h : e.Absorbed u w f) (hblocks : e.compressedLen.toNat % e.alg.blockLength = 0)
    (hbound : e.compressedLen.toNat + w.length < 2 ^ 128) :
    (f.finalize u).1.state = chain u e.alg e.state (w ++ padding e.alg (e.compressedLen.toNat + w.length))
      ((w ++ padding e.alg (e.compressedLen.toNat + w.length)).length / e.alg.blockLength) := by
  have hdm := Nat.div_add_mod' w.length e.alg.blockLength
  have hP := Engine.padded_padAndCompress (u := u) h.shaped (by rw [h.count, h.cur]; omega)
  generalize hk : w.length / e.alg.blockLength = k at *
  have htake : (w.take (k * e.alg.blockLength)).length = k * e.alg.blockLength := by
    rw [List.length_take]
    omega
  have hw : w ++ padding e.alg (e.compressedLen.toNat + w.length) = w.take (k * e.alg.blockLength) ++ f.lastBytes := by
    rw [h.lastBytes hblocks, hk, ← List.append_assoc, List.take_append_drop]
  have hstate : f.state = chain u e.alg e.state (w.take (k * e.alg.blockLength)) k := by
    rw [h.state, hk, ← chain_append (v := w.drop (k * e.alg.blockLength)) (Nat.le_of_eq htake.symm),
      List.take_append_drop]
  calc (f.finalize u).1.state
      = chain u e.alg f.state f.lastBytes (f.lastBytes.length / e.alg.blockLength) := by rw [← h.alg]; exact hP.state
    _ = chain u e.alg e.state (w.take (k * e.alg.blockLength) ++ f.lastBytes)
          (k + f.lastBytes.length / e.alg.blockLength) := by rw [hstate, chain_append_right htake]
    _ = _ := by
      rw [hw, List.length_append, htake, Nat.add_comm (k * _), Nat.add_mul_div_right _ _ (blockLength_pos e.alg),
        Nat.add_comm k]

/-- ABSORB into a new session, no byte of whose block is valid yet: `w` is the message (R34, R161). -/
theorem Engine.absorbed_fresh (u : Units) (a : Alg) {message : List Byte} (hlen : message.length < 2 ^ 128) :
    (Engine.fresh a).Absorbed u message ((Engine.fresh a).absorb u message) := by
  simpa [Memory.readBytes] using Engine.absorbed_absorb (u := u) (Engine.shaped_fresh a) message (by simpa using hlen)

/-- A new session that absorbs a message and finishes returns the message's digest (R144, R197). -/
theorem Engine.finalize_absorb_fresh_digest (u : Units) (a : Alg) {message : List Byte} (hlen : message.length < 2 ^ 128) :
    (((Engine.fresh a).absorb u message).finalize u).2 = messageDigest u a message := by
  have hzero : (Engine.fresh a).compressedLen.toNat = 0 := rfl
  have hstate := (Engine.absorbed_fresh u a hlen).finalize_state (by rw [hzero, Nat.zero_mod])
    (by rwa [hzero, Nat.zero_add])
  rw [hzero, Nat.zero_add, Engine.fresh_alg, Engine.fresh_state, List.length_append, length_padding,
    Nat.mul_div_cancel _ (blockLength_pos a)] at hstate
  rw [Engine.finalize_digest, Engine.absorb_alg, Engine.fresh_alg, hstate, messageDigest]

end

/-! ### A session of INIT and ONESHOT -/

/-- A step on an admitted ONESHOT (R205). -/
theorem step_oneshot_ok {s : State} {p : List Byte} {rest : List HostAction}
    (hin : s.inbox = .command (oneshotCommand p) :: rest) (hp : p.length < 2 ^ 24) (ha : s.engine.phase = .active)
    (hb : (s.engine.compressedLen.toNat + s.engine.curBlockLen.toNat + p.length) * 8 <
      2 ^ (8 * s.engine.alg.lengthCounterWidth)) :
    step s = .next ((s.capture (oneshotCommand p) rest).respondOk ((s.engine.absorb s.units p).finalize s.units).1
      ((s.engine.absorb s.units p).finalize s.units).2) :=
  (step_of_decode hin (decode_oneshotCommand hp)).trans (exec_oneshot_ok ha rfl hb)

/-- No payload reaches the length bound of a new session: `LEN` has 24 bits, and the shortest length field has 64 (R94,
R160). -/
theorem fresh_lengthBound (a : Alg) {n : Nat} (hn : n < 2 ^ 24) :
    ((Engine.fresh a).compressedLen.toNat + (Engine.fresh a).curBlockLen.toNat + n) * 8 <
      2 ^ (8 * (Engine.fresh a).alg.lengthCounterWidth) := by
  have hpow : 2 ^ 64 ≤ 2 ^ (8 * a.lengthCounterWidth) :=
    Nat.pow_le_pow_right (by decide) (by have := blockLength_cases a; omega)
  calc ((Engine.fresh a).compressedLen.toNat + (Engine.fresh a).curBlockLen.toNat + n) * 8
      = n * 8 := by simp
    _ < 2 ^ 64 := by omega
    _ ≤ 2 ^ (8 * (Engine.fresh a).alg.lengthCounterWidth) := hpow

/-- Settles O35: INIT leaves a new session, ONESHOT absorbs the message into it, and FINALIZE chains the padded message. -/
theorem sessionDigestIsMerkleDamgard : Obligations.SessionDigestIsMerkleDamgard := by
  intro s a message rest hu hlen hin
  have hinit := step_init_ok hin hu
  have honeshot := step_oneshot_ok (s := (s.capture (initCommand a) (.command (oneshotCommand message) :: rest)).respondOk
    (Engine.fresh a) []) rfl hlen rfl (fresh_lengthBound a hlen)
  exact ⟨_, (run_succ_of_step Sys2Proof.core 1 hinit).trans (run_succ_of_step Sys2Proof.core 0 honeshot), rfl, rfl,
    answeredOk_respondOk _ _ _, Engine.finalize_absorb_fresh_digest s.units a (by omega)⟩

end Sys2Proof.Machine
end

section
/-! UPDATE (spec/42_update.md R155 to R162): its closed form, what it compresses and counts, two UPDATEs in a row, the empty
UPDATE; and ONESHOT as one UPDATE and a FINISH (spec/45_oneshot.md R205 to R208): its closed form, and any split of a message
over UPDATEs. -/

namespace Sys2Proof.Machine

section
variable {s t : State} {u : Units} {e f : Engine} {w p : List Byte}

/-! ### ABSORB within the length bound -/

/-- The length bound leaves room for the closed form of ABSORB (R160, R161). -/
theorem Engine.absorbed_of_lengthBound (hs : e.Shaped)
    (hb : (e.compressedLen.toNat + e.curBlockLen.toNat + p.length) * 8 < 2 ^ (8 * e.alg.lengthCounterWidth)) :
    e.Absorbed u ((List.range e.curBlockLen.toNat).map e.block.read ++ p) (e.absorb u p) := by
  have := lt_of_lengthBound _ hb
  rw [← readBytes_zero]
  exact Engine.absorbed_absorb hs p (by omega)

/-- What is absorbed in all: the valid bytes of the block, and the payload (R161). -/
theorem length_validBytes_append (e : Engine) (p : List Byte) :
    ((List.range e.curBlockLen.toNat).map e.block.read ++ p).length = e.curBlockLen.toNat + p.length := by
  simp

/-- Two engines of one row agree on the offsets that no block has (R33). -/
theorem read_eq_of_blockLength_le (he : e.Shaped) (hf : f.Shaped) (halg : f.alg = e.alg) {i : Nat}
    (hi : e.alg.blockLength ≤ i) : f.block.read i = e.block.read i := by
  rw [read_of_blockLength_le hf (by rwa [halg]), read_of_blockLength_le he hi]

/-- Bytes that do not fill the block leave the state and the counter as they were (R158). -/
theorem Engine.Absorbed.of_length_lt (h : e.Absorbed u w f) (hlt : w.length < e.alg.blockLength) :
    f.state = e.state ∧ f.compressedLen = e.compressedLen ∧ f.curBlockLen.toNat = w.length := by
  obtain ⟨-, -, hstate, hcur, hcount, -, -, -⟩ := h
  rw [Nat.div_eq_of_lt hlt] at hstate hcount
  refine ⟨hstate, BitVec.eq_of_toNat_eq (by omega), ?_⟩
  rw [hcur, Nat.mod_eq_of_lt hlt]

/-- Bytes that end with a full block are all compressed (R158). -/
theorem Engine.Absorbed.of_blockLength_dvd (h : e.Absorbed u w f) (hdvd : e.alg.blockLength ∣ w.length) :
    f.curBlockLen = 0 ∧ f.compressedLen.toNat = e.compressedLen.toNat + w.length := by
  obtain ⟨-, -, -, hcur, hcount, -, -, -⟩ := h
  rw [Nat.mod_eq_zero_of_dvd hdvd] at hcur
  rw [Nat.div_mul_cancel hdvd] at hcount
  exact ⟨BitVec.eq_of_toNat_eq hcur, hcount⟩

/-- ABSORB of the first part of a payload leaves the length bound its second part meets (R160). -/
theorem Engine.lengthBound_absorb {q : List Byte} (hs : e.Shaped)
    (hb : (e.compressedLen.toNat + e.curBlockLen.toNat + (p ++ q).length) * 8 < 2 ^ (8 * e.alg.lengthCounterWidth)) :
    ((e.absorb u p).compressedLen.toNat + (e.absorb u p).curBlockLen.toNat + q.length) * 8 <
      2 ^ (8 * (e.absorb u p).alg.lengthCounterWidth) := by
  rw [List.length_append] at hb
  rw [absorb_count hs p (by omega), Engine.absorb_alg]
  omega

/-! ### The answers of UPDATE -/

/-- A successful UPDATE was admitted, and is ABSORB (R155). -/
theorem exec_update_accepted {n : Nat} (h : exec (.update n) s = .next t) (hok : t.answeredOk = true) :
    s.payload.length = n ∧ s.engine.absorbError n = none ∧ t = s.respondOk (s.engine.absorb s.units s.payload) [] := by
  obtain ⟨hlen, hans⟩ := exec_eq_next.1 h
  obtain rfl : s.payload.length = n := hlen
  subst hans
  rcases updateSession_cases s s.payload with ⟨err, -, herr⟩ | ⟨hadmit, habsorb⟩
  · rw [answer, herr, answeredOk_raise] at hok
    cases hok
  · exact ⟨rfl, hadmit, habsorb⟩

/-- A step on an admitted UPDATE (R155). -/
theorem step_update_ok {rest : List HostAction} (hin : s.inbox = .command (updateCommand p) :: rest)
    (hp : p.length < 2 ^ 24) (ha : s.engine.phase = .active)
    (hb : (s.engine.compressedLen.toNat + s.engine.curBlockLen.toNat + p.length) * 8 <
      2 ^ (8 * s.engine.alg.lengthCounterWidth)) :
    step s = .next ((s.capture (updateCommand p) rest).respondOk (s.engine.absorb s.units p) []) :=
  (step_of_decode hin (decode_updateCommand hp)).trans (exec_update_ok ha rfl hb)

/-- A success that leaves the registers, and a command with no payload, write the response alone (R101, R159). -/
theorem State.respondOk_of_payload_nil (h : s.payload = []) :
    s.respondOk s.engine [] = { s with response := some ⟨responseWord 0 s.engine.phase 0, []⟩ } := by
  simp [State.respondOk, h]

end

/-! ### The closed form of UPDATE -/

/-- Settles O20: it is the closed form of ABSORB, and outside the block no byte is listed. -/
theorem updateClosedForm : Obligations.UpdateClosedForm := by
  rintro s n ⟨hs, -, -⟩ ha rfl hb
  have hA := Engine.absorbed_of_lengthBound (u := s.units) hs hb
  refine ⟨_, exec_update_ok ha rfl hb, hA.state, hA.cur, hA.count, hA.fresh, hA.stale,
    fun i => read_eq_of_blockLength_le hs hA.shaped hA.alg, hA.phase.trans ha, hA.alg, ?_, rfl, rfl, rfl⟩
  rw [State.respondOk_response, Engine.absorb_phase, ha]
  rfl

/-- Settles O21: quotient and remainder of what is absorbed say how much is compressed. -/
theorem updateCompressesExactlyFullBlocks : Obligations.UpdateCompressesExactlyFullBlocks := by
  intro s t n hinv ha hexec hok
  obtain ⟨hs, hc, -⟩ := hinv
  obtain ⟨rfl, hadmit, rfl⟩ := exec_update_accepted hexec hok
  obtain ⟨-, hb⟩ := absorbError_eq_none.1 hadmit
  have hA := Engine.absorbed_of_lengthBound (u := s.units) hs hb
  have hwhole := ((Engine.counted_absorb (u := s.units) hs hc ha hb).1 (by rwa [Engine.absorb_phase])).1
  rw [Engine.absorb_alg] at hwhole
  have hlen := length_validBytes_append s.engine s.payload
  refine ⟨⟨?_, Nat.dvd_of_mod_eq_zero hwhole, absorb_count hs _ hb⟩, fun hlt => ?_, fun hdvd => ?_⟩
  · rw [State.respondOk_engine, hA.cur]
    exact Nat.mod_lt _ (blockLength_pos _)
  · rw [← hlen] at hlt ⊢
    exact hA.of_length_lt hlt
  · rw [Nat.add_assoc, ← hlen]
    exact hA.of_blockLength_dvd (by rwa [hlen])

/-- Settles O22: the invariant keeps the counters within the length bound, and ABSORB of nothing changes nothing. -/
theorem emptyUpdateChangesNothing : Obligations.EmptyUpdateChangesNothing := by
  rintro s ⟨-, ⟨hactive, -⟩, -⟩ hp
  have hexec : exec (.update 0) s = .next (updateSession s []) := by
    rw [exec_of_length (by rw [hp]; rfl), answer, hp]
  rw [hexec, updateSession, List.length_nil]
  rcases absorbError_cases s.engine 0 with ⟨ha, h⟩ | ⟨ha, h⟩ | ⟨ha, h, hover⟩ | ⟨ha, h, -⟩ <;> rw [h, ha]
  · exact congrArg _ ((State.raise_of_payload_nil hp .notInit).trans (by rw [ha]; rfl))
  · exact congrArg _ ((State.raise_of_payload_nil hp .misuse).trans (by rw [ha]; rfl))
  · obtain ⟨-, hb⟩ := hactive ha
    omega
  · exact congrArg _ ((State.respondOk_of_payload_nil hp).trans (by rw [ha]; rfl))

/-! ### UPDATEs in a row -/

/-- Settles O24: ABSORB of `p ++ q` is ABSORB of `p` and then of `q`, and the length bound of the whole is that of each. -/
theorem updatesCompose : Obligations.UpdatesCompose := by
  rintro s p q ⟨hs, -, -⟩ ha hb
  have hbp : (s.engine.compressedLen.toNat + s.engine.curBlockLen.toNat + p.length) * 8 <
      2 ^ (8 * s.engine.alg.lengthCounterWidth) := by
    rw [List.length_append] at hb
    omega
  have hbq := Engine.lengthBound_absorb (u := s.units) hs hb
  obtain ⟨-, -, -, -, hlt⟩ := hs
  refine ⟨_, _, _, exec_update_ok ha rfl hbp, exec_update_ok ((Engine.absorb_phase _ _ _).trans ha) rfl hbq,
    exec_update_ok ha rfl hb, answeredOk_respondOk _ _ _, answeredOk_respondOk _ _ _, answeredOk_respondOk _ _ _, ?_⟩
  exact (absorb_append hlt p q).symm

/-- A run of `j` steps and then of `k` is one run. -/
theorem run_add_of_run (M : Host.Core) {s t : M.State} (j k : Nat) (h : M.run j s = .next t) :
    M.run (j + k) s = M.run k t := by
  induction j generalizing s with
  | zero =>
    cases h
    rw [Nat.zero_add]
  | succ j ih =>
    rw [Host.Core.run] at h
    split at h
    · rename_i s' hstep
      rw [Nat.succ_add, run_succ_of_step M _ hstep, ih h]
    · cases h
    · cases h

/-- UPDATEs in a row leave the registers of one ABSORB of all their payloads (R162). -/
theorem run_updates {chunks : List (List Byte)} {rest : List HostAction} {s : State} (hs : s.engine.Shaped)
    (ha : s.engine.phase = .active) (hlen : chunks.flatten.length < 2 ^ 24)
    (hb : (s.engine.compressedLen.toNat + s.engine.curBlockLen.toNat + chunks.flatten.length) * 8 <
      2 ^ (8 * s.engine.alg.lengthCounterWidth))
    (hin : s.inbox = chunks.map (fun p => .command (updateCommand p)) ++ rest) :
    ∃ t, Sys2Proof.core.run chunks.length s = .next t ∧ t.engine = s.engine.absorb s.units chunks.flatten ∧
      t.units = s.units ∧ t.inbox = rest := by
  induction chunks generalizing s with
  | nil => exact ⟨s, rfl, rfl, rfl, hin⟩
  | cons p chunks ih =>
    rw [List.flatten_cons] at hb hlen ⊢
    have hbq := Engine.lengthBound_absorb (u := s.units) hs hb
    rw [List.length_append] at hb hlen
    have hbp : (s.engine.compressedLen.toNat + s.engine.curBlockLen.toNat + p.length) * 8 <
        2 ^ (8 * s.engine.alg.lengthCounterWidth) := by omega
    have hstep := step_update_ok hin (by omega) ha hbp
    obtain ⟨t, hrun, hengine, hunits, hinbox⟩ := ih
      (s := (s.capture (updateCommand p) (chunks.map (fun p => .command (updateCommand p)) ++ rest)).respondOk
        (s.engine.absorb s.units p) [])
      (Engine.shaped_absorb hs hbp) ((Engine.absorb_phase _ _ _).trans ha) (by omega) hbq rfl
    obtain ⟨-, -, -, -, hlt⟩ := hs
    exact ⟨t, (run_succ_of_step Sys2Proof.core _ hstep).trans hrun, hengine.trans (absorb_append hlt p _).symm, hunits,
      hinbox⟩

/-- Settles O34: the UPDATEs leave what ABSORB of the whole message leaves, and FINISH finalizes it as ONESHOT does. -/
theorem anySplitGivesTheOneshotDigest : Obligations.AnySplitGivesTheOneshotDigest := by
  rintro s chunks rest ⟨hs, -, -⟩ ha hlen hb hin
  obtain ⟨m, hrun, hengine, hunits, hinbox⟩ := run_updates hs ha hlen hb hin
  have ha' : m.engine.phase = .active := by rw [hengine, Engine.absorb_phase, ha]
  have hfinish := step_finish_ok hinbox ha'
  have honeshot := step_oneshot_ok (s := { s with inbox := .command (oneshotCommand chunks.flatten) :: rest }) rfl hlen ha hb
  rw [hengine, hunits] at hfinish
  exact ⟨_, _, (run_add_of_run Sys2Proof.core chunks.length 1 hrun).trans (run_succ_of_step Sys2Proof.core 0 hfinish),
    honeshot, rfl, rfl, rfl, answeredOk_respondOk _ _ _⟩

/-! ### The closed form of ONESHOT -/

/-- A message is padded to whole blocks from any block boundary on (R178). -/
theorem length_append_padding_mod {a : Alg} {m : Nat} (hm : m % a.blockLength = 0) (w : List Byte) :
    (w ++ padding a (m + w.length)).length % a.blockLength = 0 := by
  have hpad := length_padding a (m + w.length)
  rw [Nat.add_assoc, ← List.length_append] at hpad
  refine Nat.mod_eq_zero_of_dvd ((Nat.dvd_add_right (Nat.dvd_of_mod_eq_zero hm)).1 ?_)
  rw [hpad]
  exact Nat.dvd_mul_left _ _

/-- The response word of a finished session: success, TERMINAL, and the length of the digest (R100, R101). -/
theorem responseWord_terminal (dlen : Nat) : responseWord 0 .terminal dlen = BitVec.ofNat 32 (0x20 + 256 * dlen) := by
  rw [responseWord, Phase.code, Nat.zero_add, Nat.mul_comm dlen]

/-- Settles O31: ABSORB leaves a session of the invariant, and FINALIZE pads and chains the rest of its message. -/
theorem oneshotClosedForm : Obligations.OneshotClosedForm := by
  rintro s n ⟨hs, hc, -⟩ ha rfl hb
  obtain ⟨hwhole, -⟩ := hc.1 ha
  have hA := Engine.absorbed_of_lengthBound (u := s.units) hs hb
  have hlen := length_validBytes_append s.engine s.payload
  have hroom := lt_of_lengthBound _ hb
  have hs' := Engine.shaped_absorb (u := s.units) hs hb
  have hc' := Engine.counted_absorb (u := s.units) hs hc ha hb
  have ha' : (s.engine.absorb s.units s.payload).phase = .active := hA.phase.trans ha
  refine ⟨_, exec_oneshot_ok ha rfl hb, length_append_padding_mod hwhole _, hA.finalize_state hwhole (by omega), ?_, rfl,
    (Engine.finalize_alg _ _).trans hA.alg, fun i => ?_, ?_, rfl, rfl, rfl⟩
  · rw [State.respondOk_engine, Engine.compressedLen_finalize hs' hc' ha', absorb_count hs _ hb, hlen, Nat.add_assoc]
  · exact read_eq_of_blockLength_le hs (Engine.shaped_finalize hs' hc' ha') ((Engine.finalize_alg _ _).trans hA.alg)
  · rw [State.respondOk_response, Engine.finalize_phase, Engine.length_finalize, responseWord_terminal,
      Engine.finalize_digest, hA.alg]
    rfl

end Sys2Proof.Machine
end

section
/-! FINISH (spec/43_finish.md R170 to R182): its closed form in one and in two blocks, the padding-only block after a
message that ends with a full one, and the byte order of the length field. -/

namespace Sys2Proof.Machine

section
variable {s t : State} {u : Units} {a : Alg} {e f : Engine} {v w : List Byte} {m r : Nat}

/-! ### What is appended to the message -/

/-- After whole blocks, the zeros that `padding` counts are those that follow `r` bytes of the last block (R178). -/
theorem padding_of_blocks (hm : m % a.blockLength = 0) (hr : r < a.blockLength) :
    padding a (m + r) =
      0x80 :: (zeroBytes ((2 * a.blockLength - a.lengthCounterWidth - 1 - r) % a.blockLength) ++
        enc (8 * (m + r)) a.lengthCounterWidth a.outputEndianness) := by
  have hmod : (m + r) % a.blockLength = r := by rw [Nat.add_mod, hm, Nat.zero_add, Nat.mod_mod, Nat.mod_eq_of_lt hr]
  rw [padding, hmod, List.cons_append]

/-- A length field that fits after the marker ends the block of the marker (R174, R178). -/
theorem padding_of_fits (hm : m % a.blockLength = 0) (hfit : r < a.blockLength - a.lengthCounterWidth) :
    padding a (m + r) = [0x80] ++ zeroBytes (a.blockLength - a.lengthCounterWidth - 1 - r) ++
      enc (8 * (m + r)) a.lengthCounterWidth a.outputEndianness := by
  have hzeros : (2 * a.blockLength - a.lengthCounterWidth - 1 - r) % a.blockLength =
      a.blockLength - a.lengthCounterWidth - 1 - r := by
    rw [Nat.mod_eq_sub_mod (by omega), Nat.mod_eq_of_lt (by omega)]
    omega
  rw [padding_of_blocks hm (by omega), hzeros]
  rfl

/-- A length field that does not fit takes a block of its own, and the zeros fill both blocks (R173, R178). -/
theorem padding_of_spills (hm : m % a.blockLength = 0) (hr : r < a.blockLength)
    (hspill : a.blockLength - a.lengthCounterWidth ≤ r) :
    padding a (m + r) = [0x80] ++ zeroBytes (a.blockLength - 1 - r) ++
      (zeroBytes (a.blockLength - a.lengthCounterWidth) ++
        enc (8 * (m + r)) a.lengthCounterWidth a.outputEndianness) := by
  have hL := lengthCounterWidth_lt a
  have hzeros : (2 * a.blockLength - a.lengthCounterWidth - 1 - r) % a.blockLength =
      (a.blockLength - 1 - r) + (a.blockLength - a.lengthCounterWidth) := by
    rw [Nat.mod_eq_of_lt (by omega)]
    omega
  rw [padding_of_blocks hm hr, hzeros, zeroBytes, List.replicate_add, List.append_assoc]
  rfl

/-- FINALIZE compresses the bytes of the partial block, followed by the padding of the whole message (R178). -/
theorem Engine.lastBytes_eq_append_padding (hs : e.Shaped) (hm : e.compressedLen.toNat % e.alg.blockLength = 0) :
    e.lastBytes = (List.range e.curBlockLen.toNat).map e.block.read ++
      padding e.alg (e.compressedLen.toNat + e.curBlockLen.toNat) := by
  obtain ⟨-, -, -, -, hr⟩ := hs
  rw [padding_of_blocks hm hr, Nat.mul_comm 8, ← readBytes_zero]
  rfl

/-! ### One block or two -/

/-- Chaining a message of two blocks is two transforms (R161). -/
theorem chain_two {st : List Word} (hv : v.length = a.blockLength) (hw : w.length = a.blockLength) :
    chain u a st (v ++ w) 2 = u.apply a.family (u.apply a.family st v) w := by
  rw [chain_append_right (k := 1) (by rw [hv, Nat.one_mul]) w 1, chain_one hv, chain_one hw]

/-- FINALIZE leaves in the block the last of what it compressed (R178). -/
theorem Engine.Padded.readBytes_block (h : e.Padded u f) :
    f.block.readBytes 0 e.alg.blockLength = e.lastBytes.drop (e.lastBytes.length - e.alg.blockLength) := by
  have hB : e.alg.blockLength ≤ e.lastBytes.length := by rw [h.length]; split <;> omega
  apply List.ext_getElem
  · rw [Memory.length_readBytes, List.length_drop]
    omega
  · intro i hi _
    rw [Memory.length_readBytes] at hi
    rw [← List.getD_eq_getElem _ 0, Memory.getD_readBytes _ _ _ _ hi, Nat.zero_add, h.block i hi, List.getElem_drop,
      List.getD_eq_getElem]

/-- Last bytes of one block: one transform (R177, R178). -/
theorem Engine.Padded.one_block (h : e.Padded u f) (hlast : e.lastBytes = w) (hw : w.length = e.alg.blockLength) :
    f.state = u.apply e.alg.family e.state w ∧ f.block.readBytes 0 e.alg.blockLength = w := by
  constructor
  · rw [h.state, hlast, hw, Nat.div_self (blockLength_pos _), chain_one hw]
  · rw [h.readBytes_block, hlast, hw, Nat.sub_self, List.drop_zero]

/-- Last bytes of two blocks: two transforms, and the second block stays in the buffer (R173, R177, R178). -/
theorem Engine.Padded.two_blocks (h : e.Padded u f) (hlast : e.lastBytes = v ++ w)
    (hv : v.length = e.alg.blockLength) (hw : w.length = e.alg.blockLength) :
    f.state = u.apply e.alg.family (u.apply e.alg.family e.state v) w ∧
      f.block.readBytes 0 e.alg.blockLength = w := by
  have hlen : e.lastBytes.length = 2 * e.alg.blockLength := by rw [hlast, List.length_append]; omega
  constructor
  · rw [h.state, hlen, Nat.mul_div_cancel _ (blockLength_pos _), hlast, chain_two hv hw]
  · rw [h.readBytes_block, hlen, hlast, Nat.two_mul, Nat.add_sub_cancel, List.drop_left' hv]

/-! ### The answer of FINISH -/

/-- A FINISH that answers in a session is FINALIZE (R170). -/
theorem eq_respondOk_of_exec_finish (ha : s.engine.phase = .active) (h : exec .finish s = .next t) :
    t = s.respondOk (s.engine.finalize s.units).1 (s.engine.finalize s.units).2 := by
  obtain ⟨hlen, -⟩ := exec_eq_next.1 h
  rw [exec_finish_ok ha (List.length_eq_zero_iff.1 hlen)] at h
  injection h with h
  exact h.symm

/-- The response of a finished session: success, TERMINAL, and the whole serialised state (R101, R179, R197). -/
theorem State.respondOk_finalize_response (s : State) (e : Engine) (u : Units) :
    (s.respondOk (e.finalize u).1 (e.finalize u).2).response =
      some ⟨BitVec.ofNat 32 (0x20 + 256 * (e.alg.stateWidth * e.alg.wordSize)),
        serialise e.alg (e.finalize u).1.state⟩ := by
  rw [State.respondOk_response, Engine.finalize_phase, Engine.length_finalize, responseWord_terminal,
    Engine.finalize_digest]

/-- The case of one block (R174, R178). -/
theorem Engine.finalize_of_fits (hs : e.Shaped) (hc : e.Counted) (ha : e.phase = .active)
    (hfit : e.curBlockLen.toNat < e.alg.blockLength - e.alg.lengthCounterWidth) :
    let w := (List.range e.curBlockLen.toNat).map e.block.read ++ [0x80] ++
      zeroBytes (e.alg.blockLength - e.alg.lengthCounterWidth - 1 - e.curBlockLen.toNat) ++
      enc (8 * (e.compressedLen.toNat + e.curBlockLen.toNat)) e.alg.lengthCounterWidth e.alg.outputEndianness
    (e.finalize u).1.state = u.apply e.alg.family e.state w ∧
      (e.finalize u).1.curBlockLen.toNat = e.curBlockLen.toNat + 1 ∧
      (e.finalize u).1.block.readBytes 0 e.alg.blockLength = w := by
  intro w
  obtain ⟨hwhole, -⟩ := hc.1 ha
  have hP := Engine.padded_of_active (u := u) hs hc ha
  have hlast : e.lastBytes = w := by
    rw [Engine.lastBytes_eq_append_padding hs hwhole, padding_of_fits hwhole hfit]
    simp only [w, List.append_assoc]
  have hw : w.length = e.alg.blockLength := by rw [← hlast, hP.length, if_pos hfit]
  obtain ⟨hstate, hblock⟩ := hP.one_block hlast hw
  exact ⟨hstate, hP.cur.trans (if_pos hfit), hblock⟩

/-- The case of two blocks (R172, R173, R178). -/
theorem Engine.finalize_of_spills (hs : e.Shaped) (hc : e.Counted) (ha : e.phase = .active)
    (hspill : e.alg.blockLength - e.alg.lengthCounterWidth ≤ e.curBlockLen.toNat) :
    let v := (List.range e.curBlockLen.toNat).map e.block.read ++ [0x80] ++
      zeroBytes (e.alg.blockLength - 1 - e.curBlockLen.toNat)
    let w := zeroBytes (e.alg.blockLength - e.alg.lengthCounterWidth) ++
      enc (8 * (e.compressedLen.toNat + e.curBlockLen.toNat)) e.alg.lengthCounterWidth e.alg.outputEndianness
    (e.finalize u).1.state = u.apply e.alg.family (u.apply e.alg.family e.state v) w ∧
      (e.finalize u).1.curBlockLen.toNat = 0 ∧
      (e.finalize u).1.block.readBytes 0 e.alg.blockLength = w := by
  intro v w
  obtain ⟨hwhole, -⟩ := hc.1 ha
  obtain ⟨-, -, -, -, hr⟩ := id hs
  have hL := lengthCounterWidth_lt e.alg
  have hP := Engine.padded_of_active (u := u) hs hc ha
  have hlast : e.lastBytes = v ++ w := by
    rw [Engine.lastBytes_eq_append_padding hs hwhole, padding_of_spills hwhole hr hspill]
    simp only [v, w, List.append_assoc]
  have hv : v.length = e.alg.blockLength := by
    simp only [v, List.length_append, List.length_map, List.length_range, List.length_singleton, length_zeroBytes]
    omega
  have hw : w.length = e.alg.blockLength := by
    rw [List.length_append, length_zeroBytes, length_enc]
    omega
  obtain ⟨hstate, hblock⟩ := hP.two_blocks hlast hv hw
  exact ⟨hstate, hP.cur.trans (if_neg (Nat.not_lt.2 hspill)), hblock⟩

/-! ### The byte order of the length field -/

theorem outputEndianness_eq (a : Alg) : a.outputEndianness = if a = .legacy128 then .little else .big := by
  cases a <;> rfl

/-- Byte `j` of an encoding in the row's order (R12, R62). -/
theorem toNat_getD_enc (x : Nat) {n j : Nat} (hj : j < n) :
    ((enc x n a.outputEndianness).getD j 0).toNat =
      if a = .legacy128 then x / 256 ^ j % 256 else x / 256 ^ (n - 1 - j) % 256 := by
  rw [outputEndianness_eq]
  split
  · rw [getD_enc_little _ _ _ hj, BitVec.toNat_ofNat, Nat.mod_mod]
  · rw [getD_enc_big _ _ _ hj, BitVec.toNat_ofNat, Nat.mod_mod]

end

/-! ### The statements about FINISH -/

/-- Settles O25: padding the last block gives one block or two, by the fit test. -/
theorem finishClosedForm : Obligations.FinishClosedForm := by
  rintro s ⟨hs, hc, -⟩ ha hp
  obtain ⟨hwhole, -⟩ := hc.1 ha
  obtain ⟨-, -, -, -, hr⟩ := id hs
  have hL := lengthCounterWidth_lt s.engine.alg
  refine ⟨_, exec_finish_ok ha hp, fun hfit => ?_, fun hspill => ?_, ?_, fun i => ?_,
    Engine.compressedLen_finalize hs hc ha, rfl, Engine.finalize_alg _ _, State.respondOk_finalize_response _ _ _,
    rfl, rfl, rfl⟩
  · have hlt : s.engine.curBlockLen.toNat < s.engine.alg.blockLength - s.engine.alg.lengthCounterWidth := by omega
    obtain ⟨hstate, hcur, hblock⟩ := Engine.finalize_of_fits (u := s.units) hs hc ha hlt
    exact ⟨hstate, hcur, hblock, (padding_of_fits hwhole hlt).symm⟩
  · obtain ⟨hstate, hcur, hblock⟩ := Engine.finalize_of_spills (u := s.units) hs hc ha hspill
    exact ⟨hstate, hcur, hblock, (padding_of_spills hwhole hr hspill).symm⟩
  · rw [length_padding]
    exact Nat.mul_mod_left _ _
  · exact read_eq_of_blockLength_le hs (Engine.shaped_finalize hs hc ha) (Engine.finalize_alg _ _)

/-- Settles O26: it is the case of one block, with no message byte before the marker. -/
theorem finishAfterFullBlockAddsOnePaddingBlock : Obligations.FinishAfterFullBlockAddsOnePaddingBlock := by
  rintro s t ⟨hs, hc, -⟩ ha hzero hexec
  obtain rfl := eq_respondOk_of_exec_finish ha hexec
  have hL := lengthCounterWidth_lt s.engine.alg
  have hcur : s.engine.curBlockLen.toNat = 0 := by rw [hzero]; rfl
  have hcount := Engine.compressedLen_finalize (u := s.units) hs hc ha
  obtain ⟨hstate, hcur', -⟩ := Engine.finalize_of_fits (u := s.units) hs hc ha (by omega)
  rw [hcur] at hstate hcur' hcount
  exact ⟨hstate, BitVec.eq_of_toNat_eq hcur', BitVec.eq_of_toNat_eq hcount⟩

/-- Settles O28: the last bytes of the block are the encoded bit length. -/
theorem lengthFieldIsInOutputOrder : Obligations.LengthFieldIsInOutputOrder := by
  rintro s t ⟨hs, hc, -⟩ ha hexec B L bitlen j hj
  obtain rfl := eq_respondOk_of_exec_finish ha hexec
  have hP := Engine.padded_of_active (u := s.units) hs hc ha
  calc ((s.engine.padAndCompress s.units).block.read (B - L + j)).toNat
      = (((s.engine.padAndCompress s.units).block.readBytes (B - L) L).getD j 0).toNat := by
        rw [Memory.getD_readBytes _ _ _ _ hj]
    _ = ((enc bitlen L s.engine.alg.outputEndianness).getD j 0).toNat := by
        rw [hP.lengthField, Nat.mul_comm _ 8]
    _ = _ := toNat_getD_enc bitlen hj

end Sys2Proof.Machine
end

section
/-! CODEC: the bytes of a serialised state (spec/44_codec.md R195, R197). -/

namespace Sys2Proof.Machine

/-- The pieces `f 0 .. f (m - 1)`, each of `n` bytes: byte `i * n + j` of them all is byte `j` of piece `i`. -/
theorem getD_flatMap_range {f : Nat → List Byte} {m n i j : Nat} (hf : ∀ k, (f k).length = n) (hi : i < m) (hj : j < n) :
    ((List.range m).flatMap f).getD (i * n + j) 0 = (f i).getD j 0 := by
  have hlen (k : Nat) : ((List.range k).flatMap f).length = k * n := by simp [List.length_flatMap, hf]
  induction m with
  | zero => exact absurd hi (Nat.not_lt_zero i)
  | succ m ih =>
    rw [List.range_succ, List.flatMap_append, List.flatMap_singleton]
    obtain hlt | rfl := Nat.lt_succ_iff_lt_or_eq.1 hi
    · have hin : i * n + j < m * n := by
        calc i * n + j < (i + 1) * n := by rw [Nat.succ_mul]; omega
          _ ≤ m * n := Nat.mul_le_mul_right n hlt
      rw [getD_append_lt (by rwa [hlen]), ih hlt]
    · rw [List.getD_append_right _ _ _ _ (by rw [hlen]; omega), hlen, Nat.add_sub_cancel_left]

/-- Byte `j` of word `i` of a serialised state is byte `j` of that word's encoding (R195). -/
theorem getD_serialise (a : Alg) (st : List Word) {i j : Nat} (hi : i < a.stateWidth) (hj : j < a.wordSize) :
    (serialise a st).getD (i * a.wordSize + j) 0 =
      (enc (st.getD i 0).toNat a.wordSize a.outputEndianness).getD j 0 :=
  getD_flatMap_range (fun _ => length_enc _ _ _) hi hj

/-- Settles O19: the byte sits in its word's encoding, which is in the row's byte order. -/
theorem codecSerialisesWordByWord : Obligations.CodecSerialisesWordByWord := by
  refine fun e => ⟨length_codec e, fun i hi j hj => ?_⟩
  rw [codec_eq_serialise, getD_serialise _ _ hi hj, toNat_getD_enc _ hj]

end Sys2Proof.Machine
end

section
/-! ONESHOT against UPDATE and FINISH (spec/45_oneshot.md R206 to R208): the sequence of the two, all or nothing, and the
empty payload. -/

namespace Sys2Proof.Machine

section
variable {s u t : State} {e : Engine} {n : Nat}

/-! ### After the UPDATE of the same payload -/

/-- A rejected UPDATE is the rejection that its admission test names, and ONESHOT has the same test (R205, R207). -/
theorem exec_oneshot_of_update_rejected (h : exec (.update n) s = .next u) (hbad : u.answeredOk = false) :
    ∃ err, u = s.raise err ∧ exec (.oneshot n) s = .next u := by
  obtain ⟨hlen, rfl⟩ := exec_eq_next.1 h
  rcases updateSession_cases s s.payload with ⟨err, herr, hupdate⟩ | ⟨-, hupdate⟩
  · refine ⟨err, hupdate, exec_eq_next.2 ⟨hlen, ?_⟩⟩
    rw [answer, answer, oneshotSession, herr, hupdate]
  · rw [answer, hupdate, answeredOk_respondOk] at hbad
    cases hbad

/-- After a successful UPDATE, FINISH is FINALIZE: the session is still ACTIVE, and the payload is consumed (R155, R170). -/
theorem exec_finish_of_update_accepted (h : exec (.update n) s = .next u) (hok : u.answeredOk = true) :
    exec .finish u = .next (u.respondOk (u.engine.finalize u.units).1 (u.engine.finalize u.units).2) := by
  obtain ⟨-, hadmit, rfl⟩ := exec_update_accepted h hok
  obtain ⟨ha, -⟩ := absorbError_eq_none.1 hadmit
  exact exec_finish_ok ((Engine.absorb_phase _ _ _).trans ha) rfl

/-- ONESHOT is UPDATE and then FINISH, whole state and all: the response of that FINISH replaces the one of that UPDATE
(R206). -/
theorem exec_oneshot_eq_exec_finish (h : exec (.update n) s = .next u) (hok : u.answeredOk = true) :
    exec (.oneshot n) s = exec .finish u := by
  rw [exec_finish_of_update_accepted h hok]
  obtain ⟨hlen, hadmit, rfl⟩ := exec_update_accepted h hok
  obtain ⟨ha, hb⟩ := absorbError_eq_none.1 hadmit
  exact exec_oneshot_ok ha hlen hb

/-! ### The empty payload -/

/-- A session's counters are within the length bound already, so before an empty payload the phase alone is tested (R160). -/
theorem Engine.absorbError_zero (hc : e.Counted) : e.absorbError 0 = e.phaseError := by
  cases hp : e.phaseError with
  | some err => rw [Engine.absorbError, hp]
  | none =>
    have ha := phaseError_eq_none.1 hp
    obtain ⟨-, hb⟩ := hc.1 ha
    exact absorbError_eq_none.2 ⟨ha, hb⟩

end

/-! ### The statements about ONESHOT -/

/-- Settles O30: the state that FINISH answers is the one that ONESHOT answers. -/
theorem oneshotIsUpdateThenFinish : Obligations.OneshotIsUpdateThenFinish := by
  intro s u t n hupdate hok hfinish
  have honeshot := (exec_oneshot_eq_exec_finish hupdate hok).trans hfinish
  rw [exec_finish_of_update_accepted hupdate hok] at hfinish
  injection hfinish with hfinish
  exact ⟨t, honeshot, rfl, rfl, rfl, rfl, by rw [← hfinish, State.respondOk_payload]⟩

/-- Settles O32: both commands have one admission test, and past it ONESHOT is the UPDATE and the FINISH. -/
theorem oneshotIsAllOrNothing : Obligations.OneshotIsAllOrNothing := by
  refine fun s u n hupdate => ⟨fun hbad => ?_, fun hok => ?_⟩
  · obtain ⟨err, rfl, honeshot⟩ := exec_oneshot_of_update_rejected hupdate hbad
    exact ⟨honeshot, rfl, rfl⟩
  · have hfinish := exec_finish_of_update_accepted hupdate hok
    exact ⟨_, _, (exec_oneshot_eq_exec_finish hupdate hok).trans hfinish, hfinish, rfl, rfl, rfl, rfl, rfl,
      answeredOk_respondOk _ _ _, rfl⟩

/-- Settles O33: the two have one test in a state of the invariant, and ABSORB of nothing changes nothing. -/
theorem emptyOneshotIsFinish : Obligations.EmptyOneshotIsFinish := by
  rintro s ⟨-, hc, -⟩ hp
  have hlen : s.payload.length = 0 := by rw [hp, List.length_nil]
  have hsession : oneshotSession s [] = finishSession s := by
    rw [oneshotSession, finishSession, List.length_nil, Engine.absorbError_zero hc]
    cases s.engine.phaseError with
    | some err => rfl
    | none => simp only [Engine.absorb_nil]
  rw [exec_of_length hlen, exec_of_length hlen, answer, answer, hp, hsession]

end Sys2Proof.Machine
end

section
/-! The lifecycle table (spec/46_sequencing.md R185, R186): the error and the phase after of every answer, as the cell of the
table for the decoded header. -/

namespace Sys2Proof.Machine

/-! ### The cell that an answer shows -/

/-- The last response carries the error number of a cell of the lifecycle table, and the engine is in the cell's phase. -/
def State.Shows (t : State) (cell : Nat × Phase) : Prop :=
  ∃ r, t.response = some r ∧ (r.word.toNat % 16, t.engine.phase) = cell

/-- The `ERR` field is the low four bits of the response word, whatever the digest's length (R100). -/
theorem toNat_responseWord_mod {err : Nat} (herr : err ≤ 6) (p : Phase) (dlen : Nat) :
    (responseWord err p dlen).toNat % 16 = err := by
  rw [responseWord, BitVec.toNat_ofNat, Nat.mod_mod_of_dvd _ (by decide)]
  omega

theorem State.shows_raise (s : State) (err : ErrorCode) : (s.raise err).Shows (err.code, s.engine.phase) :=
  ⟨_, rfl, Prod.ext (toNat_responseWord_mod err.code_le _ _) rfl⟩

theorem State.shows_respondOk (s : State) (e : Engine) (d : List Byte) : (s.respondOk e d).Shows (0, e.phase) :=
  ⟨_, rfl, Prod.ext (toNat_responseWord_mod (Nat.zero_le _) _ _) rfl⟩

/-! ### The table's rows, by the admission tests

A row's cells are those of its command's test (R185): the error the test gives, with the phase unchanged, or success. -/

section
variable (e : Engine) (p : Phase) (len n : Nat) (wired tooLong : Bool)

theorem lifecycle_init (a : Alg) :
    lifecycle (.command (Instr.init a)) p wired tooLong = if wired then (0, .active) else (3, p) := by
  cases a <;> rfl

theorem lifecycle_finish :
    lifecycle (.command .finish) e.phase wired tooLong =
      e.phaseError.elim (0, .terminal) fun err => (err.code, e.phase) := by
  unfold Engine.phaseError
  cases e.phase <;> rfl

theorem lifecycle_update :
    lifecycle (.command (.update len)) e.phase wired (e.lengthOverflows n) =
      (e.absorbError n).elim (0, .active) fun err => (err.code, e.phase) := by
  unfold Engine.absorbError Engine.phaseError
  cases e.phase <;> cases e.lengthOverflows n <;> rfl

theorem lifecycle_oneshot :
    lifecycle (.command (.oneshot len)) e.phase wired (e.lengthOverflows n) =
      (e.absorbError n).elim (0, .terminal) fun err => (err.code, e.phase) := by
  unfold Engine.absorbError Engine.phaseError
  cases e.phase <;> cases e.lengthOverflows n <;> rfl

end

theorem familyAsked_init (a : Alg) : familyAsked (.command (Instr.init a)) = some a.family := by
  cases a <;> rfl

/-! ### The answers of the commands -/

section
variable (s : State) (p : List Byte)

theorem initSession_shows (a : Alg) :
    (initSession a s).Shows (if s.units.present a.family then (0, .active) else (3, s.engine.phase)) := by
  rcases initSession_cases a s with ⟨hw, hi⟩ | ⟨hw, hi⟩ <;> rw [hw, hi]
  · exact s.shows_respondOk _ _
  · exact s.shows_raise .noTransform

/-- A command with an admission test shows the error of its test, or the phase that its success leaves (R185). -/
theorem State.shows_of_admission {s t : State} {e : Engine} {d : List Byte} {test : Option ErrorCode} {after : Phase}
    (h : (∃ err, test = some err ∧ t = s.raise err) ∨ (test = none ∧ t = s.respondOk e d))
    (hafter : test = none → e.phase = after) :
    t.Shows (test.elim (0, after) fun err => (err.code, s.engine.phase)) := by
  rcases h with ⟨err, rfl, rfl⟩ | ⟨hnone, rfl⟩
  · exact s.shows_raise err
  · rw [hnone, ← hafter hnone]
    exact s.shows_respondOk e d

theorem finishSession_shows :
    (finishSession s).Shows (s.engine.phaseError.elim (0, .terminal) fun err => (err.code, s.engine.phase)) :=
  State.shows_of_admission (finishSession_cases s) fun _ => rfl

/-- ABSORB keeps the ACTIVE phase in which the test admits it (R155). -/
theorem updateSession_shows :
    (updateSession s p).Shows
      ((s.engine.absorbError p.length).elim (0, .active) fun err => (err.code, s.engine.phase)) :=
  State.shows_of_admission (updateSession_cases s p) fun hok =>
    (Engine.absorb_phase _ _ _).trans (absorbError_eq_none.1 hok).1

theorem oneshotSession_shows :
    (oneshotSession s p).Shows
      ((s.engine.absorbError p.length).elim (0, .terminal) fun err => (err.code, s.engine.phase)) :=
  State.shows_of_admission (oneshotSession_cases s p) fun _ => rfl

/-- A command of the table shows its row's cell (R186). -/
theorem answer_shows_lifecycle (i : Instr) :
    (answer i s).Shows
      (lifecycle (.command i) s.engine.phase (((familyAsked (.command i)).map s.units.present).getD false)
        (s.engine.lengthOverflows s.payload.length)) := by
  rcases instr_cases i with ⟨a, rfl⟩ | ⟨n, rfl⟩ | rfl | ⟨n, rfl⟩
  · rw [answer_init, lifecycle_init, familyAsked_init]
    exact initSession_shows s a
  · rw [lifecycle_update]
    exact updateSession_shows s s.payload
  · rw [lifecycle_finish]
    exact finishSession_shows s
  · rw [lifecycle_oneshot]
    exact oneshotSession_shows s s.payload

end

/-! ### The statement about the table -/

/-- Settles O43: a command of the table shows its row's cell, and a rejected header shows its error in the unchanged phase. -/
theorem lifecycleTable : Obligations.LifecycleTable := by
  intro s t c rest hin hstep
  rw [step_command hin] at hstep
  cases hd : decode c.header <;> rw [hd] at hstep
  case command i =>
    obtain ⟨-, rfl⟩ := exec_eq_next.1 hstep
    exact answer_shows_lifecycle (s.capture c rest) i
  case initUnsupported n =>
    rw [execDecoded, rejectUnsupported, withPayload_eq_next] at hstep
    obtain ⟨-, rfl⟩ := hstep
    exact (s.capture c rest).shows_raise .badAlg
  case illegal =>
    rw [execDecoded, rejectIllegal, withPayload_eq_next] at hstep
    obtain ⟨-, rfl⟩ := hstep
    exact (s.capture c rest).shows_raise .badCmd

end Sys2Proof.Machine
end

section
/-! Exceptions, reset and hazards (spec/60_exceptions.md R210 to R218, spec/70_reset_and_hazards.md R227, R240 to R247): the
rejections with the words they answer and their order, the UNBOUND phase after reset, and what the model gives no meaning. -/

namespace Sys2Proof.Machine

section
variable {s : State} {e : Engine} {i : Instr} {err : ErrorCode} {n : Nat}

/-! ### What the host does besides commands -/

/-- With no action left the engine is idle (R227). -/
theorem step_of_inbox_nil (hin : s.inbox = []) : step s = .next s := by
  rw [step, hin]

/-- A hardware reset between commands (R241). -/
theorem step_hardReset {rest : List HostAction} (hin : s.inbox = .hardReset :: rest) :
    step s = .next (s.hardReset rest) := by
  rw [step, hin]

/-- Several hosts at once (R246). -/
theorem step_overlapping {cs : List Command} {rest : List HostAction} (hin : s.inbox = .overlapping cs :: rest) :
    step s = .refused .overlappingCommands := by
  rw [step, hin]

/-! ### The rejections -/

/-- `raise` as the registers it keeps and the word it answers (R216). -/
theorem State.raise_eq (s : State) (err : ErrorCode) :
    s.raise err =
      { s with payload := [], response := some ⟨BitVec.ofNat 32 (err.code + 16 * s.engine.phase.code), []⟩ } := by
  rw [State.raise, responseWord_err]

/-- The phase test comes before the length bound (R218). -/
theorem absorbError_of_phaseError (h : e.phaseError = some err) (n : Nat) : e.absorbError n = some err := by
  rw [Engine.absorbError, h]

theorem absorbError_of_lengthBound (ha : e.phase = .active)
    (hb : 2 ^ (8 * e.alg.lengthCounterWidth) ≤ (e.compressedLen.toNat + e.curBlockLen.toNat + n) * 8) :
    e.absorbError n = some .lenOverflow := by
  rw [Engine.absorbError, phaseError_eq_none.2 ha, Engine.lengthOverflows, decide_eq_true hb]
  rfl

/-- An UPDATE that fails its admission test raises the error of the test (R155). -/
theorem exec_update_rejected (hlen : s.payload.length = n) (herr : s.engine.absorbError n = some err) :
    exec (.update n) s = .next (s.raise err) := by
  rw [exec_of_length hlen, answer, updateSession, hlen, herr]

/-- A ONESHOT that fails its admission test raises the error of the test (R205). -/
theorem exec_oneshot_rejected (hlen : s.payload.length = n) (herr : s.engine.absorbError n = some err) :
    exec (.oneshot n) s = .next (s.raise err) := by
  rw [exec_of_length hlen, answer, oneshotSession, hlen, herr]

/-- A FINISH that fails the phase test raises the error of the test (R170). -/
theorem exec_finish_rejected (hlen : s.payload.length = 0) (herr : s.engine.phaseError = some err) :
    exec .finish s = .next (s.raise err) := by
  rw [exec_of_length hlen, answer, finishSession, herr]

/-- The commands of a session share the phase test, and it is the first of each (R211, R214, R218). -/
theorem exec_rejected_of_phaseError (herr : s.engine.phaseError = some err) (hlen : s.payload.length = i.payloadLength)
    (hi : i = .finish ∨ ∃ n, i = .update n ∨ i = .oneshot n) : exec i s = .next (s.raise err) := by
  rcases hi with rfl | ⟨n, rfl | rfl⟩
  · exact exec_finish_rejected hlen herr
  · exact exec_update_rejected hlen (absorbError_of_phaseError herr n)
  · exact exec_oneshot_rejected hlen (absorbError_of_phaseError herr n)

/-- An INIT word of an `ALG` from 8 on names no algorithm (R93, R98). -/
theorem decode_unsupportedInit {alg : Nat} (h8 : 8 ≤ alg) (h16 : alg < 16) :
    decode (headerOf 1 alg 0) = .initUnsupported alg := by
  obtain ⟨ho, ha, hl⟩ := fields_headerOf (opc := 1) (len := 0) (by decide) h16 (by decide)
  rw [decode_of_init ho hl, ha, decodeInit_of_ge h8]

/-- With the default of R9 every family's unit is wired. -/
theorem present_default (f : Family) : Units.default.present f = true := by
  cases f <;> rfl

/-! ### Framing -/

/-- A payload of another length than the header gives is refused (R94, R247). -/
theorem withPayload_of_length_ne {f : List Byte → State} (h : s.payload.length ≠ n) :
    withPayload n s f = .refused .misframed := if_neg h

/-- Framing comes first in the meaning of every header, legal or not (R247). -/
theorem execDecoded_of_length_ne {h : PortWord} (hlen : s.payload.length ≠ payloadLength h) :
    execDecoded (decode h) s = .refused .misframed := by
  rw [payloadLength] at hlen
  cases hd : decode h <;> rw [hd] at hlen
  case command i => exact (exec_eq_withPayload i s).trans (withPayload_of_length_ne hlen)
  case initUnsupported => exact withPayload_of_length_ne (f := fun _ => s.raise .badAlg) hlen
  case illegal => exact withPayload_of_length_ne (f := fun _ => s.raise .badCmd) hlen

/-- The top byte of a header word is `OPC` and `ALG` (R91). -/
theorem toNat_div_eq_fields (h : PortWord) : h.toNat / 2 ^ 24 = opcOf h * 16 + algOf h := by
  have := toNat_eq_fields h
  have := lenOf_lt h
  omega

theorem payloadLength_of_decode {h : PortWord} (hd : decode h = .command i) : payloadLength h = i.payloadLength := by
  rw [payloadLength, hd]

/-- A header word carries a payload when its top byte is that of an UPDATE or of a ONESHOT (R94, R96). -/
theorem payloadLength_eq_ite (h : PortWord) :
    payloadLength h =
      if h.toNat / 2 ^ 24 = 0x20 ∨ h.toNat / 2 ^ 24 = 0x40 then h.toNat % 2 ^ 24 else 0 := by
  have halg := algOf_lt h
  rw [toNat_div_eq_fields, ← lenOf_eq_mod]
  split
  case isTrue htop =>
    rcases htop with htop | htop
    · exact payloadLength_of_decode (decode_of_update (by omega) (by omega))
    · exact payloadLength_of_decode (decode_of_oneshot (by omega) (by omega))
  case isFalse htop =>
    rcases decode_cases h with ⟨a, -, -, -, hd⟩ | ⟨-, -, -, hd⟩ | ⟨ho, ha, -⟩ | ⟨-, -, -, hd⟩ |
      ⟨ho, ha, -⟩ | hd
    · rw [payloadLength_of_decode hd, payloadLength_init]
    · rw [payloadLength, hd]
    · omega
    · exact payloadLength_of_decode hd
    · omega
    · rw [payloadLength, hd]

end

/-! ### The statements about errors -/

/-- Settles O42: what is not answered with success is a `raise`, and `raise` writes the response alone. -/
theorem rejectionIsPrecise : Obligations.RejectionIsPrecise := by
  intro s t c rest hin hstep hbad
  obtain ⟨err, rfl⟩ := eq_raise_of_not_answeredOk hin hstep hbad
  exact ⟨rfl, rfl, rfl, rfl, err, State.response_raise err (s.capture c rest)⟩

/-- Settles O23: the phase test passes, and the length bound is the test after it. -/
theorem lengthOverflowIsRejected : Obligations.LengthOverflowIsRejected := by
  intro s n ha hlen hb
  have herr := absorbError_of_lengthBound ha hb
  rw [exec_update_rejected hlen herr, exec_oneshot_rejected hlen herr, State.raise_eq, ha]
  exact ⟨rfl, rfl⟩

/-- Settles O36: the phase test gives `E_MISUSE` in the TERMINAL phase. -/
theorem misuseAfterFinish : Obligations.MisuseAfterFinish := by
  intro s i hp hlen hi
  have herr : s.engine.phaseError = some .misuse := by rw [Engine.phaseError, hp]
  rw [exec_rejected_of_phaseError herr hlen hi, State.raise_eq, hp]
  rfl

/-- Settles O37: the phase test gives `E_NOT_INIT` in the UNBOUND phase, and reads `phase` alone. -/
theorem notInitBeforeInit : Obligations.NotInitBeforeInit := by
  intro s i hp hlen hi
  have herr : s.engine.phaseError = some .notInit := by rw [Engine.phaseError, hp]
  rw [exec_rejected_of_phaseError herr hlen hi, State.raise_eq, hp]
  rfl

/-- Settles O38: an illegal word has one meaning in every state, the rejection. -/
theorem illegalWordIsRejected : Obligations.IllegalWordIsRejected := by
  intro s h rest hd hin
  rw [step_command hin, hd, execDecoded_illegal rfl, State.raise_eq]
  rfl

/-- Settles O39: the word decodes to an unsupported INIT, whose one meaning is the rejection. -/
theorem unsupportedAlgorithmIsRejected : Obligations.UnsupportedAlgorithmIsRejected := by
  intro s alg rest h8 h16 hin
  rw [step_command hin, decode_unsupportedInit h8 h16, execDecoded_initUnsupported rfl, State.raise_eq]
  rfl

/-- Settles O40: whether the unit is wired decides between the two answers of an INIT. -/
theorem missingTransformIsRejected : Obligations.MissingTransformIsRejected := by
  refine ⟨fun s a rest hu hin => ?_, fun s a rest hu hin => ?_⟩
  · rw [step_of_decode hin (decode_initCommand a), exec_init_rejected (s := s.capture _ rest) rfl hu, State.raise_eq]
    rfl
  · exact ⟨_, step_init_ok hin (by rw [hu, present_default]), answeredOk_respondOk _ _ _⟩

/-- Settles O41: each error is the one its own statement gives, which asks nothing of what the later tests would say. -/
theorem errorPriority : Obligations.ErrorPriority := by
  refine ⟨fun s h rest hd hin => ⟨_, illegalWordIsRejected s h rest hd hin, rfl⟩,
    fun s alg rest h8 h16 hin => ⟨_, unsupportedAlgorithmIsRejected s alg rest h8 h16 hin, rfl⟩,
    by decide, by decide, fun s n hlen hne _ => ?_⟩
  cases hp : s.engine.phase with
  | unbound =>
    exact ⟨_, _, notInitBeforeInit s (.update n) hp hlen (.inr ⟨n, .inl rfl⟩),
      notInitBeforeInit s (.oneshot n) hp hlen (.inr ⟨n, .inr rfl⟩), rfl, rfl⟩
  | active => exact absurd hp hne
  | terminal =>
    exact ⟨_, _, misuseAfterFinish s (.update n) hp hlen (.inr ⟨n, .inl rfl⟩),
      misuseAfterFinish s (.oneshot n) hp hlen (.inr ⟨n, .inr rfl⟩), rfl, rfl⟩

/-! ### The statements about reset and hazards -/

/-- Settles O50, by the idle case of the step. -/
theorem idleStepHoldsTheState : Obligations.IdleStepHoldsTheState :=
  fun _ hin => step_of_inbox_nil hin

/-- Settles O46: of the ways a command can end with success, an INIT alone does not start in the ACTIVE phase. -/
theorem resetIsUnbound : Obligations.ResetIsUnbound := by
  refine ⟨rfl, step_of_inbox_nil rfl, fun s rest hin => ⟨_, step_hardReset hin, rfl, rfl, rfl, rfl⟩, ?_⟩
  intro s t c rest hu hin hstep hok
  rcases step_command_cases hin hstep with ⟨err, rfl, -⟩ | ⟨a, hd, -⟩ | ⟨n, -, ha, -⟩ | ⟨i, p, -, -, ha, -⟩
  · rw [answeredOk_raise] at hok
    cases hok
  · exact ⟨a, hd⟩
  · cases hu.symm.trans ha
  · cases hu.symm.trans ha

/-- Settles O51, by the overlapping case of the step. -/
theorem overlappingCommandsAreRefused : Obligations.OverlappingCommandsAreRefused :=
  fun _ _ _ hin => step_overlapping hin

/-- Settles O52: the length that the top byte gives is the one that framing asks for. -/
theorem misframedTransactionsAreRefused : Obligations.MisframedTransactionsAreRefused := by
  intro s h p rest hin hlen
  rw [← payloadLength_eq_ite] at hlen
  rw [step_command hin]
  exact execDecoded_of_length_ne hlen

end Sys2Proof.Machine
end
